-- ==== Sys2Proof/Word.lean ====
section
/-! DEFINITION. The widths of the block's values: 32-bit registers, bytes, the 16-bit running
checksum and the hexadecimal digit (00_scope.md section 6, 10_state.md R11 to R20). -/

namespace Sys2Proof

/-- A register's content or a command word: 32 bits, unsigned (10_state.md section 1). -/
abbrev Word := BitVec 32

/-- A buffer cell's content: 8 bits (10_state.md R17, R18). -/
abbrev Byte := BitVec 8

/-- The running remainder `c` and the checksum: 16 bits (10_state.md R20, 40_checksum.md R65). -/
abbrev Remainder := BitVec 16

/-- The value of one hexadecimal digit: 4 bits (41_hex_normalizer.md R86). -/
abbrev Nibble := BitVec 4

end Sys2Proof
end

