-- ==== Sys2Proof/Syntax.lean ====
section
/-! DEFINITION. The instructions of the block: the three operations of the opcode map
(30_encoding.md R53). -/

namespace Sys2Proof

/-- One constructor per row of the opcode table. A command word carries no operand
(30_encoding.md R52), so no constructor has an argument. -/
inductive Instr where
  /-- `CRC16`, 40_checksum.md R72. -/
  | crc16
  /-- `HEXDET`, 41_hex_normalizer.md R94. -/
  | hexdet
  /-- `HEX2BIN`, 41_hex_normalizer.md R95. -/
  | hex2bin
  deriving DecidableEq, Repr

end Sys2Proof
end

