-- ==== Sys2Proof/Decode.lean ====
section
/-! DEFINITION. Decoding a command word (30_encoding.md R51, R53, R54, R59), and the encoder
written from the same map. -/

namespace Sys2Proof

/-- Why a word is reserved and illegal (30_encoding.md R54). The block reports one code for both
(60_exceptions.md R111); the two names are the model's (log entry 11). -/
inductive IllegalWord where
  /-- A non-zero bit in 31:8. -/
  | reservedBits
  /-- Bits 31:8 are zero and the low byte is no opcode of the map. -/
  | reservedOpcode (opcode : Byte)
  deriving DecidableEq, Repr

/-- Field `zero` of format C, bits 31:8 (30_encoding.md R51). -/
def zeroField (v : Word) : BitVec 24 := v.extractLsb' 8 24

/-- Field `opcode` of format C, bits 7:0 (30_encoding.md R51). -/
def opcodeField (v : Word) : Byte := v.extractLsb' 0 8

/-- The decoder of 30_encoding.md R59, total on 32-bit words. -/
def decode (v : Word) : Except IllegalWord Instr :=
  if zeroField v ≠ 0 then .error .reservedBits
  else if opcodeField v = 0x01 then .ok .crc16
  else if opcodeField v = 0x02 then .ok .hexdet
  else if opcodeField v = 0x03 then .ok .hex2bin
  else .error (.reservedOpcode (opcodeField v))

/-- The opcode of an instruction (30_encoding.md R53). -/
def opcodeOf : Instr → Byte
  | .crc16 => 0x01
  | .hexdet => 0x02
  | .hex2bin => 0x03

/-- The command word of an instruction: bits 31:8 zero, the opcode below (30_encoding.md R51). -/
def encode (i : Instr) : Word := (0 : BitVec 24) ++ opcodeOf i

/-- A row of the opcode map as `opcode_table.json` writes it: a word matches when it equals
`pattern` on the bits of `mask`. -/
structure OpcodeRow where
  instr : Instr
  mask : Word
  pattern : Word
  deriving DecidableEq, Repr

/-- The complete opcode map, in the order of 30_encoding.md R53. -/
def opcodeTable : List OpcodeRow :=
  [ { instr := .crc16, mask := 0xFFFFFFFF, pattern := 0x00000001 },
    { instr := .hexdet, mask := 0xFFFFFFFF, pattern := 0x00000002 },
    { instr := .hex2bin, mask := 0xFFFFFFFF, pattern := 0x00000003 } ]

/-- Whether a word matches a row of the map. -/
def OpcodeRow.accepts (r : OpcodeRow) (v : Word) : Bool := (v &&& r.mask) == r.pattern

/-- The command word that a table word stands for: its low `nbits` bits, the bits above zero. A
command word is one 32-bit value, so there is no byte order to choose (20_memory.md R39). -/
def tableWord (nbits w : Nat) : Word := BitVec.ofNat 32 (w % 2 ^ nbits)

/-- The instruction the decoder reads from a table word; none where it refuses, and none for a
word longer than a command word. -/
def decodeTableWord (nbits w : Nat) : Option Instr :=
  if 32 < nbits then none
  else
    match decode (tableWord nbits w) with
    | .ok i => some i
    | .error _ => none

end Sys2Proof
end

