-- ==== Sys2Proof/Config.lean ====
section
/-! DEFINITION. The implementation parameters of 00_scope.md R5. They are arguments of the model:
plain data that a state carries and that no step changes (log entry 1). -/

namespace Sys2Proof

/-- `CHECK_WIDTH`: how many bits of the checksum field a comparing user looks at, 16 or 32
(00_scope.md R5). -/
inductive CheckWidth where
  | bits16
  | bits32
  deriving DecidableEq, Repr

/-- The parameters of 00_scope.md R5. `BUS_BASE` is left out, as R5 says. -/
structure Params where
  /-- `IN_MAX`, the capacity of IBUF in bytes. -/
  inMax : Nat
  /-- `HEX_WINDOW`, how many leading bytes the detection inspects. -/
  hexWindow : Nat
  /-- `CHECK_WIDTH`; no operation of the block uses it. -/
  checkWidth : CheckWidth
  deriving DecidableEq, Repr

/-- `OUT_MAX = floor(IN_MAX / 2)` (00_scope.md R5). -/
abbrev Params.outMax (p : Params) : Nat := p.inMax / 2

/-- The defaults of 00_scope.md R5 for `HEX_WINDOW` and `CHECK_WIDTH`. R5 leaves `IN_MAX` open:
256 is the value the programs of 95_test_vectors.md use.
DESIGN CHOICE (log entry 1), unsafe for a claim that rests on this capacity. -/
def Params.default : Params := { inMax := 256, hexWindow := 64, checkWidth := .bits32 }

end Sys2Proof
end

