-- ==== Sys2Proof/Machine/Transaction.lean ====
section
/-! DEFINITION. What acts on the block from outside: the five host transactions of
20_memory.md R30, the platform's reset, and what a transaction returns. -/

namespace Sys2Proof.Machine

/-- The six registers by name (10_state.md section 1). -/
inductive Reg where
  | cmd
  | off
  | len
  | crc
  | olen
  | status
  deriving DecidableEq, Repr

/-- The number of a register (10_state.md section 1). -/
def Reg.number : Reg → Nat
  | .cmd => 0
  | .off => 1
  | .len => 2
  | .crc => 3
  | .olen => 4
  | .status => 5

/-- The register of a number; none above 5 (20_memory.md R42). -/
def Reg.ofNumber : Nat → Option Reg
  | 0 => some .cmd
  | 1 => some .off
  | 2 => some .len
  | 3 => some .crc
  | 4 => some .olen
  | 5 => some .status
  | _ => none

/-- The five kinds of host transaction (20_memory.md R30). Numbers and indices are natural
numbers, so that one outside the map can be written down and refused (R42). -/
inductive Transaction where
  | regRead (n : Nat)
  | regWrite (n : Nat) (v : Word)
  | ibufWrite (a : Nat) (b : Byte)
  | ibufRead (a : Nat)
  | obufRead (a : Nat)
  deriving DecidableEq, Repr

/-- What can reach the block from outside: a host transaction, or the platform's reset, which is
an external event and no transaction (70_reset_and_hazards.md R130; log entry 5). -/
inductive Event where
  | host (t : Transaction)
  | platformReset
  deriving DecidableEq, Repr

/-- What a transaction returns to the host: the column "Returns" of 20_memory.md R30. -/
inductive Reply where
  | nothing
  | word (v : Word)
  | byte (b : Byte)
  deriving DecidableEq, Repr

end Sys2Proof.Machine
end

