-- ==== Sys2Proof/Machine/State.lean ====
section
/-! DEFINITION. The state of one block (10_state.md R10), the reasons a step stops, and reset
(10_state.md R22). -/

namespace Sys2Proof.Machine

/-- Why the model faults. Both are safe: the model stops where the block goes on with an
unspecified value (20_memory.md R43, 93_implementation_defined.md U1). -/
inductive Fault where
  /-- A read of an IBUF cell that nothing has written since reset: raised by `IbufRead` and by an
  operation whose read set (20_memory.md R37) holds such a cell. Safe. -/
  | unwrittenIbuf (index : Nat)
  /-- A read of an OBUF cell that nothing has written since reset: raised by `ObufRead`. Safe. -/
  | unwrittenObuf (index : Nat)
  deriving DecidableEq, Repr

/-- What the model gives no meaning: a transaction outside the map (20_memory.md R42). All are
safe: the model goes no further. -/
inductive Refusal where
  /-- An instruction that has no meaning yet: raised by a refused arm of the dispatch. Safe. -/
  | notModelled (mnemonic : String)
  /-- A register number above 5: raised by `RegRead` and `RegWrite`. Safe. -/
  | noSuchRegister (number : Nat)
  /-- An index at or above `IN_MAX`: raised by `IbufRead` and `IbufWrite`. Safe. -/
  | noSuchIbufCell (index : Nat)
  /-- An index at or above `OUT_MAX`: raised by `ObufRead`. Safe. -/
  | noSuchObufCell (index : Nat)
  deriving DecidableEq, Repr

/-- A byte buffer: the written cells, by rising index. An index that is not listed is an
unwritten cell (10_state.md R17, R18). -/
abbrev Memory := List Host.Cell

/-- The state. CMD holds nothing and has no field (10_state.md R11). -/
structure State where
  /-- The parameters of 00_scope.md R5; no step changes them (log entry 1). -/
  params : Params
  /-- OFF, register 1 (10_state.md R12). -/
  off : Word
  /-- LEN, register 2 (10_state.md R13). -/
  len : Word
  /-- CRC, register 3 (10_state.md R14). -/
  crc : Word
  /-- OLEN, register 4 (10_state.md R15). -/
  olen : Word
  /-- STATUS, register 5 (10_state.md R16). -/
  status : Word
  /-- The input buffer IBUF (10_state.md R17). -/
  ibuf : Memory
  /-- The output buffer OBUF (10_state.md R18). -/
  obuf : Memory
  /-- What is still to be issued to the block, the next one first: the input of the run
  (00_scope.md R7, 10_state.md R10). DESIGN CHOICE (log entry 2). -/
  events : List Event
  /-- What the last transaction returned to its host (20_memory.md R30).
  DESIGN CHOICE (log entry 4). -/
  reply : Reply
  deriving DecidableEq, Repr

/-- The state after reset (10_state.md R22) of a block with parameters `p`, with `events` still
to come. -/
def State.resetWith (p : Params) (events : List Event) : State :=
  { params := p, off := 0, len := 0, crc := 0, olen := 0, status := 0,
    ibuf := [], obuf := [], events := events, reply := .nothing }

/-- The state right after reset: every register 0, every buffer cell unwritten (10_state.md R22),
nothing issued yet. -/
def State.reset : State := State.resetWith Params.default []

end Sys2Proof.Machine
end

