-- ==== Sys2Proof/Machine/Flags.lean ====
section
/-! DEFINITION. The fields of STATUS (10_state.md R16) and the error codes (60_exceptions.md
R111). -/

namespace Sys2Proof.Machine

/-- The outcomes of a write to CMD (60_exceptions.md R110). -/
inductive ErrCode where
  | ok
  | oddLength
  | nonHex
  | illegalCmd
  | range
  deriving DecidableEq, Repr

/-- The encoding of `STATUS.ERR` (60_exceptions.md R111). -/
def errValue : ErrCode → BitVec 3
  | .ok => 0
  | .oddLength => 1
  | .nonHex => 2
  | .illegalCmd => 3
  | .range => 4

/-- `STATUS.ERR`, bits 2:0. -/
def statusErr (w : Word) : BitVec 3 := w.extractLsb' 0 3

/-- `STATUS.HEXLIKE`, bit 8. -/
def statusHexlike (w : Word) : Bool := w.getLsbD 8

/-- A write to `STATUS.ERR`; the other bits stay (00_scope.md section 6). -/
def withErr (w : Word) (e : BitVec 3) : Word := (w &&& 0xFFFFFFF8#32) ||| e.setWidth 32

/-- A write to `STATUS.HEXLIKE`; the other bits stay (00_scope.md section 6). -/
def withHexlike (w : Word) (h : Bool) : Word :=
  (w &&& 0xFFFFFEFF#32) ||| (if h then 0x00000100#32 else 0x00000000#32)

/-- STATUS as the host reads it: ERR and HEXLIKE, the reserved bits as 0 (20_memory.md R31). -/
def statusRead (w : Word) : Word := w &&& 0x00000107#32

end Sys2Proof.Machine
end

