-- ==== Sys2Proof/Machine/Ops.lean ====
section
/-! DEFINITION. The named operations over the buffers and the registers, and the one way an error
is reported: the block's form of trap entry (60_exceptions.md R114). There is no return from an
error, because an error suspends nothing (60_exceptions.md R115). -/

namespace Sys2Proof.Machine

/-- The canonical form: indices strictly rising. An unlisted index is an unwritten cell and has no
value, so no entry can equal what it reads as. -/
abbrev Memory.wf (m : Memory) : Prop := (m.map Prod.fst).Pairwise (· < ·)

/-- Every written cell lies below the capacity `n` (10_state.md R17, R18). -/
abbrev Memory.within (m : Memory) (n : Nat) : Prop := ∀ c ∈ m, c.1 < n

/-- The byte a cell holds; none when it is unwritten. -/
def readCell : Memory → Nat → Option Byte
  | [], _ => none
  | (k, v) :: m, a => if k = a then some v else readCell m a

/-- The buffer after byte `b` is written to cell `a`; the canonical form is kept. -/
def writeCell : Memory → Nat → Byte → Memory
  | [], a, b => [(a, b)]
  | (k, v) :: m, a, b =>
    if a < k then (a, b) :: (k, v) :: m
    else if a = k then (a, b) :: m
    else (k, v) :: writeCell m a b

/-- The bytes of the `n` cells from `a` on, in index order; the first unwritten index when there
is one (20_memory.md R36, R43). -/
def readCells (m : Memory) : Nat → Nat → Except Nat (List Byte)
  | _, 0 => .ok []
  | a, n + 1 =>
    match readCell m a with
    | none => .error a
    | some b =>
      match readCells m (a + 1) n with
      | .error e => .error e
      | .ok bs => .ok (b :: bs)

/-- The buffer after the bytes are written to the cells from `a` on (41_hex_normalizer.md R95). -/
def writeCells : Memory → Nat → List Byte → Memory
  | m, _, [] => m
  | m, a, b :: bs => writeCells (writeCell m a b) (a + 1) bs

/-- `RegRead`'s value (20_memory.md R31). -/
def readReg (s : State) : Reg → Word
  | .cmd => 0x00000000
  | .off => s.off
  | .len => s.len
  | .crc => (s.crc.extractLsb' 0 16).setWidth 32
  | .olen => s.olen
  | .status => statusRead s.status

/-- CRC[15:0] and CRC[31:16] as CRC16 leaves them (40_checksum.md R72). -/
def setCrc (s : State) (r : Remainder) : State := { s with crc := r.setWidth 32 }

/-- A write to `STATUS.HEXLIKE` (41_hex_normalizer.md R94). -/
def setHexlike (s : State) (h : Bool) : State := { s with status := withHexlike s.status h }

/-- A write to OLEN (10_state.md R15). -/
def setOlen (s : State) (n : Nat) : State := { s with olen := BitVec.ofNat 32 n }

/-- Reporting the outcome of a write to CMD: `STATUS.ERR` takes the code and nothing else happens.
This is `raise` and `reject` of 00_scope.md section 6 (60_exceptions.md R114). -/
def report (s : State) (e : ErrCode) : State := { s with status := withErr s.status (errValue e) }

/-- What a transaction returns to the host (20_memory.md R30; log entry 4). -/
def answer (s : State) (r : Reply) : State := { s with reply := r }

end Sys2Proof.Machine
end

