-- ==== Sys2Proof/Machine/Operands.lean ====
section
/-! DEFINITION. The one operand form: the byte range IBUF[OFF .. OFF+LEN-1] named by OFF and LEN
(30_encoding.md R52, 20_memory.md R36), and the read sets over it (20_memory.md R37). -/

namespace Sys2Proof.Machine

/-- The outcome of a step. -/
abbrev Outcome := Host.Outcome State Fault Refusal

/-- The range check, on natural numbers without wrap-around (20_memory.md R36). -/
def rangeFits (s : State) : Bool := decide (s.off.toNat + s.len.toNat ≤ s.params.inMax)

/-- The number of bytes CRC16 and HEX2BIN read: the whole range (20_memory.md R37). -/
def rangeLength (s : State) : Nat := s.len.toNat

/-- The number of bytes HEXDET reads: the lookahead window (20_memory.md R37). -/
def windowLength (s : State) : Nat := min s.len.toNat s.params.hexWindow

/-- Running an operation over the first `n` bytes of the range: rejected with ERR_RANGE when the
range does not fit (20_memory.md R36), a fault when a cell to be read is unwritten (R43), else the
state that `op` gives for the bytes read. -/
def overRange (s : State) (n : Nat) (op : List Byte → State) : Outcome :=
  if rangeFits s then
    match readCells s.ibuf s.off.toNat n with
    | .error a => .fault (.unwrittenIbuf a)
    | .ok bs => .next (op bs)
  else .next (report s .range)

end Sys2Proof.Machine
end

