-- ==== Sys2Proof/Machine/Checksum.lean ====
section
/-! DEFINITION. The Checksum Engine: the functions of 40_checksum.md R65 to R67, their other forms
(R68, R77), and the operation CRC16 (R72). -/

namespace Sys2Proof.Machine

/-- `CRC_POLY_REFLECTED` (00_scope.md R6, 40_checksum.md R69). -/
def crcPoly : Remainder := 0xA001

/-- `CRC_INIT` (00_scope.md R6). -/
def crcInit : Remainder := 0x0000

/-- One bit (40_checksum.md R65). -/
def crcBit (c : Remainder) (d : Bool) : Remainder :=
  if (c.getLsbD 0 ^^ d) = true then (c >>> 1) ^^^ crcPoly else c >>> 1

/-- The bits of a byte in the order they are fed, bit 0 first (40_checksum.md R66). -/
def byteBits (b : Byte) : List Bool := (List.range 8).map fun j => b.getLsbD j

/-- One byte (40_checksum.md R66). -/
def crcByte (c : Remainder) (b : Byte) : Remainder := (byteBits b).foldl crcBit c

/-- The loop of 40_checksum.md R67 from a running value `c`. -/
def crcFrom (c : Remainder) (bs : List Byte) : Remainder := bs.foldl crcByte c

/-- A byte sequence (40_checksum.md R67). -/
def crc16 (bs : List Byte) : Remainder := crcFrom crcInit bs

/-- One turn of the loop of 40_checksum.md R68. -/
def crcShift (c : Remainder) : Remainder :=
  if c.getLsbD 0 = true then (c >>> 1) ^^^ crcPoly else c >>> 1

/-- The equivalent byte form (40_checksum.md R68): `b` meets the low byte first. -/
def crcByteX (c : Remainder) (b : Byte) : Remainder :=
  Nat.iterate crcShift 8 (c ^^^ b.setWidth 16)

/-- The table of 40_checksum.md R77: `T[v]`. -/
def crcTable (v : Byte) : Remainder := crcByte 0x0000 v

/-- The table form of one byte (40_checksum.md R77). -/
def crcByteTable (c : Remainder) (b : Byte) : Remainder :=
  (c >>> 8) ^^^ crcTable ((c ^^^ b.setWidth 16).extractLsb' 0 8)

/-- `CRC16` (40_checksum.md R72). -/
def execCrc16 (s : State) : Outcome :=
  overRange s (rangeLength s) fun bs => report (setCrc s (crc16 bs)) .ok

end Sys2Proof.Machine
end

