-- ==== Sys2Proof/Machine/Hex.lean ====
section
/-! DEFINITION. The Hex Normalizer: byte classes (41_hex_normalizer.md R85, R86), detection (R87),
conversion (R90, R91) and its serial form (R100), and the operations HEXDET (R94) and HEX2BIN
(R95). -/

namespace Sys2Proof.Machine

/-- `HEX_MIN_LEN` (00_scope.md R6). -/
abbrev hexMinLen : Nat := 8

/-- Class HEXDIGIT (41_hex_normalizer.md R85). -/
def isHexDigit (b : Byte) : Bool :=
  (decide (0x30#8 ≤ b) && decide (b ≤ 0x39#8)) ||
  (decide (0x41#8 ≤ b) && decide (b ≤ 0x46#8)) ||
  (decide (0x61#8 ≤ b) && decide (b ≤ 0x66#8))

/-- Class WS: space, tab, carriage return, line feed (41_hex_normalizer.md R85). -/
def isWs (b : Byte) : Bool := b == 0x20#8 || b == 0x09#8 || b == 0x0D#8 || b == 0x0A#8

/-- In one of the two classes (41_hex_normalizer.md R85). -/
def inClass (b : Byte) : Bool := isHexDigit b || isWs b

/-- The value of a digit, defined for HEXDIGIT bytes only (41_hex_normalizer.md R86). -/
def hexVal (b : Byte) : Option Nibble :=
  if 0x30#8 ≤ b ∧ b ≤ 0x39#8 then some ((b - 0x30#8).setWidth 4)
  else if 0x41#8 ≤ b ∧ b ≤ 0x46#8 then some ((b - 0x41#8 + 10#8).setWidth 4)
  else if 0x61#8 ≤ b ∧ b ≤ 0x66#8 then some ((b - 0x61#8 + 10#8).setWidth 4)
  else none

/-- The tests of 41_hex_normalizer.md R87 for a range of `n` bytes whose window holds `w`: what
HEXDET needs, since it reads the window only (20_memory.md R37). -/
def windowLooksLikeHex (n : Nat) (w : List Byte) : Bool :=
  decide (hexMinLen ≤ n) && decide (n % 2 = 0) && w.all inClass

/-- `looks_like_hex` (41_hex_normalizer.md R87) with `HEX_WINDOW = window`. -/
def looksLikeHex (window : Nat) (bs : List Byte) : Bool :=
  windowLooksLikeHex bs.length (bs.take window)

/-- `strip` (41_hex_normalizer.md R90). -/
def strip (bs : List Byte) : List Byte := bs.filter fun b => !isWs b

/-- The two causes of the one conversion error (41_hex_normalizer.md R91). -/
inductive ConversionError where
  | oddLength
  | nonHex
  deriving DecidableEq, Repr

/-- The digit values of a sequence; none when some byte is no digit. -/
def digitValues : List Byte → Option (List Nibble)
  | [] => some []
  | b :: bs =>
    match hexVal b, digitValues bs with
    | some d, some ds => some (d :: ds)
    | _, _ => none

/-- Digit pairs to bytes, the first digit of a pair the high nibble (41_hex_normalizer.md R91). -/
def pairBytes : List Nibble → List Byte
  | h :: l :: ds => (h ++ l) :: pairBytes ds
  | _ => []

/-- `hex_to_binary` (41_hex_normalizer.md R91): a byte that is neither digit nor WS first, then
the parity of the digits, then the pairs. -/
def hexToBinary (bs : List Byte) : Except ConversionError (List Byte) :=
  match digitValues (strip bs) with
  | none => .error .nonHex
  | some ds => if ds.length % 2 = 1 then .error .oddLength else .ok (pairBytes ds)

/-- The serial form's loop (41_hex_normalizer.md R100). `waiting` is the digit in `hi` when `half`
is 1 (10_state.md R20); `out` is what has been produced so far. -/
def hexSerialLoop (waiting : Option Nibble) (out : List Byte) :
    List Byte → Except ConversionError (List Byte)
  | [] => if waiting.isSome then .error .oddLength else .ok out
  | b :: bs =>
    if isWs b then hexSerialLoop waiting out bs
    else
      match hexVal b with
      | none => .error .nonHex
      | some d =>
        match waiting with
        | none => hexSerialLoop (some d) out bs
        | some hi => hexSerialLoop none (out ++ [hi ++ d]) bs

/-- `hex_to_binary_serial` (41_hex_normalizer.md R100). -/
def hexToBinarySerial (bs : List Byte) : Except ConversionError (List Byte) :=
  hexSerialLoop none [] bs

/-- The code of a conversion error (41_hex_normalizer.md R95, 60_exceptions.md R111). -/
def conversionCode : ConversionError → ErrCode
  | .oddLength => .oddLength
  | .nonHex => .nonHex

/-- What HEX2BIN does with the result of the conversion (41_hex_normalizer.md R95). -/
def storeConversion (s : State) : Except ConversionError (List Byte) → State
  | .ok x => report (setOlen { s with obuf := writeCells s.obuf 0 x } x.length) .ok
  | .error e => report (setOlen s 0) (conversionCode e)

/-- `HEXDET` (41_hex_normalizer.md R94). -/
def execHexdet (s : State) : Outcome :=
  overRange s (windowLength s) fun w =>
    report (setHexlike s (windowLooksLikeHex (rangeLength s) w)) .ok

/-- `HEX2BIN` (41_hex_normalizer.md R95). -/
def execHex2bin (s : State) : Outcome :=
  overRange s (rangeLength s) fun bs => storeConversion s (hexToBinary bs)

end Sys2Proof.Machine
end

