-- ==== Sys2Proof/Machine/Dispatch.lean ====
section
/-! DEFINITION. One arm per instruction (30_encoding.md R53). -/

namespace Sys2Proof.Machine

def exec (i : Instr) (s : State) : Host.Outcome State Fault Refusal :=
  match i with
  | .crc16 => Sys2Proof.Machine.execCrc16 s
  | .hexdet => Sys2Proof.Machine.execHexdet s
  | .hex2bin => Sys2Proof.Machine.execHex2bin s

end Sys2Proof.Machine
end

