-- ==== Sys2Proof/Machine/Transactions.lean ====
section
/-! DEFINITION. What each host transaction does (20_memory.md R31 to R35), the write to CMD that
decodes and runs a command (30_encoding.md R59), the reset event (70_reset_and_hazards.md R130),
and taking the next event. -/

namespace Sys2Proof.Machine

/-- `RegRead(n)` (20_memory.md R31, R42). -/
def regRead (s : State) (n : Nat) : Outcome :=
  match Reg.ofNumber n with
  | some r => .next (answer s (.word (readReg s r)))
  | none => .refused (.noSuchRegister n)

/-- A write of `v` to CMD (30_encoding.md R59): the illegal word is rejected before anything else
is looked at (60_exceptions.md R113). -/
def commandWrite (s : State) (v : Word) : Outcome :=
  match decode v with
  | .error _ => .next (report s .illegalCmd)
  | .ok i => exec i s

/-- `RegWrite(n, v)` (20_memory.md R32, R42). -/
def regWrite (s : State) (n : Nat) (v : Word) : Outcome :=
  match Reg.ofNumber n with
  | some .cmd => commandWrite s v
  | some .off => .next { s with off := v }
  | some .len => .next { s with len := v }
  | some .crc => .next s
  | some .olen => .next s
  | some .status => .next s
  | none => .refused (.noSuchRegister n)

/-- `IbufWrite(a, b)` (20_memory.md R33, R42). -/
def ibufWrite (s : State) (a : Nat) (b : Byte) : Outcome :=
  if a < s.params.inMax then .next { s with ibuf := writeCell s.ibuf a b }
  else .refused (.noSuchIbufCell a)

/-- `IbufRead(a)` (20_memory.md R34, R42, R43). -/
def ibufRead (s : State) (a : Nat) : Outcome :=
  if a < s.params.inMax then
    match readCell s.ibuf a with
    | some b => .next (answer s (.byte b))
    | none => .fault (.unwrittenIbuf a)
  else .refused (.noSuchIbufCell a)

/-- `ObufRead(a)` (20_memory.md R35, R42, R43). -/
def obufRead (s : State) (a : Nat) : Outcome :=
  if a < s.params.outMax then
    match readCell s.obuf a with
    | some b => .next (answer s (.byte b))
    | none => .fault (.unwrittenObuf a)
  else .refused (.noSuchObufCell a)

/-- A host transaction (20_memory.md R30). -/
def perform (t : Transaction) (s : State) : Outcome :=
  match t with
  | .regRead n => regRead s n
  | .regWrite n v => regWrite s n v
  | .ibufWrite a b => ibufWrite s a b
  | .ibufRead a => ibufRead s a
  | .obufRead a => obufRead s a

/-- The reset event (70_reset_and_hazards.md R130): the state of 10_state.md R22; the parameters
and what is still to come stay (log entry 5). -/
def platformReset (s : State) : State := State.resetWith s.params s.events

/-- What one event does. -/
def deliver (e : Event) (s : State) : Outcome :=
  match e with
  | .host t => perform t s
  | .platformReset => .next (platformReset s)

/-- The next event, and the state it is delivered to: the event is taken from the list, and no
transaction of this step has returned anything yet. -/
def takeEvent (s : State) : Option (Event × State) :=
  match s.events with
  | [] => none
  | e :: rest => some (e, { s with events := rest, reply := .nothing })

/-- One step: the next event is delivered. With no event left the block is idle and holds its
state (60_exceptions.md R120; log entry 3). -/
def advance (s : State) : Outcome :=
  match takeEvent s with
  | none => .next s
  | some (e, s') => deliver e s'

/-- The command word `v` as the host's next transaction: `RegWrite(0, v)`. -/
def issueCommand (s : State) (v : Word) : State :=
  { s with events := .host (.regWrite 0 v) :: s.events }

end Sys2Proof.Machine
end

