-- ==== Sys2Proof/Machine/Step.lean ====
section
/-! DEFINITION. One step of the model is one host transaction (00_scope.md R7). -/

namespace Sys2Proof.Machine

/-- One step. -/
def step (s : State) : Host.Outcome State Fault Refusal := advance s

/-- The block does not fetch (10_state.md R19): its next instruction is the command word of the
host's next `RegWrite(0, v)`, so that transaction is put first (log entry 6). -/
def State.withFetchWord (s : State) (nbits w : Nat) : State := issueCommand s (tableWord nbits w)

end Sys2Proof.Machine
end

