-- ==== Sys2Proof/Machine/Frame.lean ====
section
/-! DEFINITION. The checksum field of a frame (40_checksum.md R73), the comparison a user makes
(R74) and the layout of the frame around it (R75). No operation of the block uses them; the spec
gives them to users of the block. -/

namespace Sys2Proof.Machine

/-- The four bytes of the checksum field, in wire order (40_checksum.md R73). -/
structure ChecksumField where
  f0 : Byte
  f1 : Byte
  f2 : Byte
  f3 : Byte
  deriving DecidableEq, Repr

/-- `crc_field` (40_checksum.md R73). -/
def crcField (r : Remainder) : ChecksumField :=
  { f0 := 0x00, f1 := 0x00, f2 := r.extractLsb' 8 8, f3 := r.extractLsb' 0 8 }

/-- `field_value` (40_checksum.md R73). -/
def fieldValue (f : ChecksumField) : Word :=
  (f.f0.setWidth 32 <<< 24) ||| (f.f1.setWidth 32 <<< 16) ||| (f.f2.setWidth 32 <<< 8) |||
    f.f3.setWidth 32

/-- `crc_matches` (40_checksum.md R74). -/
def crcMatches (width : CheckWidth) (f : ChecksumField) (r : Remainder) : Bool :=
  match width with
  | .bits32 => fieldValue f == r.setWidth 32
  | .bits16 => (fieldValue f).extractLsb' 0 16 == r

/-- A field of the frame: its offset from the frame start and its size, in bytes. -/
structure Extent where
  offset : Nat
  size : Nat
  deriving DecidableEq, Repr

/-- The fields of a frame (40_checksum.md R75). -/
structure FrameLayout where
  preamble : Extent
  dataLength : Extent
  codecId : Extent
  recordCount : Extent
  records : Extent
  trailer : Extent
  checksum : Extent
  deriving DecidableEq, Repr

/-- The layout of a frame whose `data_length` is `d` (40_checksum.md R75). None below 3: the codec
id, the record count and the trailer are three bytes of the span. DEDUCED (log entry 13). -/
def frameLayout (d : Nat) : Option FrameLayout :=
  if d < 3 then none
  else some
    { preamble := { offset := 0, size := 4 },
      dataLength := { offset := 4, size := 4 },
      codecId := { offset := 8, size := 1 },
      recordCount := { offset := 9, size := 1 },
      records := { offset := 10, size := d - 3 },
      trailer := { offset := 8 + d - 1, size := 1 },
      checksum := { offset := 8 + d, size := 4 } }

/-- The span the checksum covers in a frame that starts at index `s` (40_checksum.md R75): what a
user sets OFF and LEN to. -/
def coveredSpan (s d : Nat) : Extent := { offset := s + 8, size := d }

/-- The size of a whole frame (40_checksum.md R75). -/
def frameSize (d : Nat) : Nat := 8 + d + 4

end Sys2Proof.Machine
end

