-- ==== Sys2Proof/Machine/Notation.lean ====
section
/-! DEFINITION. The program notation of 30_encoding.md R57 and the pseudo-instructions of R58:
each line stands for one host transaction. -/

namespace Sys2Proof.Machine

/-- A line of a program (30_encoding.md R57). -/
inductive Line where
  | wrr (r : Reg) (v : Word)
  | rdr (r : Reg)
  | wrb (a : Nat) (b : Byte)
  | rdb (a : Nat)
  | rdo (a : Nat)
  | command (i : Instr)
  deriving DecidableEq, Repr

/-- The transaction a line stands for (30_encoding.md R57). -/
def Line.transaction : Line → Transaction
  | .wrr r v => .regWrite r.number v
  | .rdr r => .regRead r.number
  | .wrb a b => .ibufWrite a b
  | .rdb a => .ibufRead a
  | .rdo a => .obufRead a
  | .command i => .regWrite 0 (encode i)

/-- A pseudo-instruction (30_encoding.md R58). `FILLS` takes its text as a list of characters. -/
inductive Pseudo where
  | range (off len : Word)
  | fill (a : Nat) (bs : List Byte)
  | fills (a : Nat) (text : List Char)
  | chk (off len : Word)
  | det (off len : Word)
  | conv (off len : Word)
  deriving DecidableEq, Repr

/-- `WRB a, b0`, `WRB a+1, b1`, ... (30_encoding.md R58). -/
def fillLines : Nat → List Byte → List Line
  | _, [] => []
  | a, b :: bs => .wrb a b :: fillLines (a + 1) bs

/-- The ASCII code of a character (93_implementation_defined.md G1). PRESUMED: the character's
code point is its ASCII code, for the characters below 128 (log entry 12). -/
def asciiByte (c : Char) : Byte := BitVec.ofNat 8 c.toNat

/-- The expansion of a pseudo-instruction (30_encoding.md R58). -/
def Pseudo.expand : Pseudo → List Line
  | .range off len => [.wrr .off off, .wrr .len len]
  | .fill a bs => fillLines a bs
  | .fills a text => fillLines a (text.map asciiByte)
  | .chk off len => [.wrr .off off, .wrr .len len, .command .crc16, .rdr .crc]
  | .det off len => [.wrr .off off, .wrr .len len, .command .hexdet, .rdr .status]
  | .conv off len =>
    [.wrr .off off, .wrr .len len, .command .hex2bin, .rdr .status, .rdr .olen]

/-- A program as what the host issues: one event a line, in order. -/
def programEvents (ls : List Line) : List Event := ls.map fun l => .host l.transaction

end Sys2Proof.Machine
end

