-- ==== Sys2Proof/WellFormed.lean ====
section
/-! DEFINITION. The checks: parameters, transactions, notation. An instruction carries no field
(30_encoding.md R52), so each one is well-formed as it stands. -/

namespace Sys2Proof

/-- The constraints of 00_scope.md R5. -/
def Params.wf (p : Params) : Bool :=
  decide (1 ≤ p.inMax) && decide (p.inMax ≤ 2 ^ 32 - 1) && decide (1 ≤ p.hexWindow)

/-- An instruction has no operand that could be ill-formed (30_encoding.md R52). -/
def Instr.wf : Instr → Bool
  | .crc16 => true
  | .hexdet => true
  | .hex2bin => true

/-- A word is a command word when the map has it (30_encoding.md R53, R54). -/
def isCommandWord (v : Word) : Bool :=
  v == 0x00000001#32 || v == 0x00000002#32 || v == 0x00000003#32

namespace Machine

/-- A transaction is inside the map (20_memory.md R42, R47). -/
def Transaction.wf (p : Params) : Transaction → Bool
  | .regRead n => decide (n ≤ 5)
  | .regWrite n _ => decide (n ≤ 5)
  | .ibufWrite a _ => decide (a < p.inMax)
  | .ibufRead a => decide (a < p.inMax)
  | .obufRead a => decide (a < p.outMax)

/-- `FILLS` takes ASCII text; `FILL` writes at least one byte (30_encoding.md R58). -/
def Pseudo.wf : Pseudo → Bool
  | .fill _ bs => !bs.isEmpty
  | .fills _ text => !text.isEmpty && text.all fun c => decide (c.toNat < 128)
  | .range _ _ => true
  | .chk _ _ => true
  | .det _ _ => true
  | .conv _ _ => true

end Machine

end Sys2Proof
end

