-- ==== Sys2Proof/Safety.lean ====
section
/-! DEFINITION. The terms claims are stated in: the invariant of the block, the read set of an
operation (20_memory.md R37), and what a host must have set up before a transaction
(70_reset_and_hazards.md R132). -/

namespace Sys2Proof.Machine

/-- Every one of the `n` cells from `a` on is written. -/
abbrev cellsWritten (m : Memory) (a n : Nat) : Prop := ∀ k < n, (readCell m (a + k)).isSome = true

/-- The cells from `a` on hold the bytes `bs`. -/
abbrev cellsHold (m : Memory) (a : Nat) (bs : List Byte) : Prop :=
  ∀ k < bs.length, readCell m (a + k) = bs[k]?

/-- The size of an operation's read set, which begins at OFF (20_memory.md R37). -/
def readLength (i : Instr) (s : State) : Nat :=
  match i with
  | .crc16 => s.len.toNat
  | .hexdet => min s.len.toNat s.params.hexWindow
  | .hex2bin => s.len.toNat

/-- What holds in every state of a block that starts at reset. -/
structure Inv (s : State) : Prop where
  /-- The parameters meet their constraints (00_scope.md R5). -/
  params : s.params.wf = true
  /-- The buffers keep their canonical form. -/
  ibufWf : Memory.wf s.ibuf
  obufWf : Memory.wf s.obuf
  /-- No cell outside the capacities (10_state.md R17, R18). -/
  ibufWithin : Memory.within s.ibuf s.params.inMax
  obufWithin : Memory.within s.obuf s.params.outMax
  /-- Bits 31:16 of CRC are 0 (10_state.md R14). -/
  crcHigh : s.crc.extractLsb' 16 16 = 0
  /-- The reserved bits of STATUS are 0 (10_state.md R16). -/
  statusReserved : s.status.extractLsb' 3 5 = 0 ∧ s.status.extractLsb' 9 23 = 0
  /-- ERR is none of 5, 6 and 7 (60_exceptions.md R111). -/
  errLegal : statusErr s.status ≤ 4#3
  /-- OLEN <= OUT_MAX (10_state.md R15). -/
  olenFits : s.olen.toNat ≤ s.params.outMax
  /-- The current output, OBUF[0 .. OLEN-1], is written (10_state.md R15, R18). -/
  outputWritten : cellsWritten s.obuf 0 s.olen.toNat

/-- A transaction that the map has and that reads no unwritten cell (20_memory.md R42, R43,
70_reset_and_hazards.md R132 item 1). -/
def Transaction.safe (s : State) : Transaction → Prop
  | .regRead n => n ≤ 5
  | .regWrite n v =>
    n ≤ 5 ∧ (n = 0 → ∀ i, decode v = .ok i → rangeFits s = true →
      cellsWritten s.ibuf s.off.toNat (readLength i s))
  | .ibufWrite a _ => a < s.params.inMax
  | .ibufRead a => a < s.params.inMax ∧ (readCell s.ibuf a).isSome = true
  | .obufRead a => a < s.params.outMax ∧ (readCell s.obuf a).isSome = true

/-- A run of `k` steps from `s` that ends in `t`: no fault and no refusal on the way. -/
def runsTo : State → Nat → State → Prop
  | s, 0, t => t = s
  | s, k + 1, t => ∃ u, step s = .next u ∧ runsTo u k t

end Sys2Proof.Machine
end

