-- ==== Sys2Proof/Certificates/Slice0/Obligations.lean ====
section
/-! DEFINITION. The statements for the provers, in the order of the spec's files. A statement about
`reply`, `events` or `params` speaks of the model's own fields (log entries 1, 2 and 4); the rest
speaks of the block. -/

open Sys2Proof Sys2Proof.Machine

/-! ## Encoding (30_encoding.md) -/

/-- The three command words, written out from 30_encoding.md R51 and R53, decode to their
operations, and the two nearest words do not decode. -/
def Obligations.CommandWordsDecode : Prop :=
  decode 0b00000000000000000000000000000001#32 = .ok .crc16 ∧
  decode 0b00000000000000000000000000000010#32 = .ok .hexdet ∧
  decode 0b00000000000000000000000000000011#32 = .ok .hex2bin ∧
  decode 0b00000000000000000000000000000000#32 = .error (.reservedOpcode 0x00) ∧
  decode 0b10000000000000000000000000000001#32 = .error .reservedBits

/-- 30_encoding.md R53: the complete opcode map. Each row is matched on the whole word, and a word
decodes to an operation exactly when it is the command word of that operation's row. -/
def Obligations.DecodeMatchesTheOpcodeMap : Prop :=
  opcodeTable =
    [ { instr := .crc16, mask := 0xFFFFFFFF, pattern := 0x00000001 },
      { instr := .hexdet, mask := 0xFFFFFFFF, pattern := 0x00000002 },
      { instr := .hex2bin, mask := 0xFFFFFFFF, pattern := 0x00000003 } ] ∧
  (∀ i : Instr, opcodeField (encode i) =
    match i with
    | .crc16 => 0x01
    | .hexdet => 0x02
    | .hex2bin => 0x03) ∧
  ∀ (v : Word) (i : Instr), decode v = .ok i ↔
    ∃ r ∈ opcodeTable, r.instr = i ∧ v &&& r.mask = r.pattern

/-- Decode and encode agree, both ways: the command word of an instruction decodes to it, and a
word that decodes to an instruction is its command word, every bit of it. -/
def Obligations.DecodeEncodeAgree : Prop :=
  (∀ i : Instr, i.wf = true → decode (encode i) = .ok i) ∧
  ∀ (v : Word) (i : Instr), decode v = .ok i → encode i = v

/-- Every word is decoded or refused by name. The two names are the model's (log entry 11). -/
def Obligations.IllegalWordsAreNamed : Prop :=
  ∀ v : Word,
    (decode v = .error .reservedBits ↔ 256 ≤ v.toNat) ∧
    (∀ o : Byte, decode v = .error (.reservedOpcode o) ↔
      v.toNat = o.toNat ∧ (o.toNat = 0 ∨ 4 ≤ o.toNat)) ∧
    ((∃ i, decode v = .ok i) ↔ 1 ≤ v.toNat ∧ v.toNat ≤ 3)

/-- 30_encoding.md R54: every word other than the three is rejected with code 3 and nothing but
`STATUS.ERR` changes, whatever OFF and LEN are. -/
def Obligations.IllegalCommandIsRejected : Prop :=
  ∀ (s : State) (v : Word), v ≠ 0x00000001#32 → v ≠ 0x00000002#32 → v ≠ 0x00000003#32 →
    perform (.regWrite 0 v) s = .next { s with status := withErr s.status 3 }

/-- 30_encoding.md R59: the decode of a written word by its fields, then the range check, then the
operation. -/
def Obligations.CommandWriteDecodesChecksRuns : Prop :=
  ∀ (s : State) (v : Word),
    (v.extractLsb' 8 24 ≠ 0 →
      perform (.regWrite 0 v) s = .next { s with status := withErr s.status 3 }) ∧
    (v.extractLsb' 8 24 = 0 →
      v.extractLsb' 0 8 ≠ 0x01 → v.extractLsb' 0 8 ≠ 0x02 → v.extractLsb' 0 8 ≠ 0x03 →
      perform (.regWrite 0 v) s = .next { s with status := withErr s.status 3 }) ∧
    (∀ i : Instr, v.extractLsb' 8 24 = 0 →
      v.extractLsb' 0 8 = (match i with | .crc16 => 0x01 | .hexdet => 0x02 | .hex2bin => 0x03) →
      (s.params.inMax < s.off.toNat + s.len.toNat →
        perform (.regWrite 0 v) s = .next { s with status := withErr s.status 4 }) ∧
      (s.off.toNat + s.len.toNat ≤ s.params.inMax →
        perform (.regWrite 0 v) s = exec i s))

/-- 30_encoding.md section 6: what each line and each pseudo-instruction stands for. In the clause
on FILLS, that the ASCII code of a character is its code point is the model's (PRESUMED, log entry
12). -/
def Obligations.NotationStandsForTransactions : Prop :=
  (∀ v : Word,
    (Line.wrr .cmd v).transaction = .regWrite 0 v ∧
    (Line.wrr .off v).transaction = .regWrite 1 v ∧
    (Line.wrr .len v).transaction = .regWrite 2 v ∧
    (Line.wrr .crc v).transaction = .regWrite 3 v ∧
    (Line.wrr .olen v).transaction = .regWrite 4 v ∧
    (Line.wrr .status v).transaction = .regWrite 5 v) ∧
  (∀ r : Reg, (Line.rdr r).transaction = .regRead r.number) ∧
  (∀ (a : Nat) (b : Byte), (Line.wrb a b).transaction = .ibufWrite a b) ∧
  (∀ a : Nat, (Line.rdb a).transaction = .ibufRead a ∧ (Line.rdo a).transaction = .obufRead a) ∧
  (Line.command .crc16).transaction = .regWrite 0 0x00000001 ∧
  (Line.command .hexdet).transaction = .regWrite 0 0x00000002 ∧
  (Line.command .hex2bin).transaction = .regWrite 0 0x00000003 ∧
  (∀ o l : Word,
    (Pseudo.range o l).expand = [.wrr .off o, .wrr .len l] ∧
    (Pseudo.chk o l).expand = (Pseudo.range o l).expand ++ [.command .crc16, .rdr .crc] ∧
    (Pseudo.det o l).expand = (Pseudo.range o l).expand ++ [.command .hexdet, .rdr .status] ∧
    (Pseudo.conv o l).expand =
      (Pseudo.range o l).expand ++ [.command .hex2bin, .rdr .status, .rdr .olen]) ∧
  (∀ (a : Nat) (bs : List Byte), (Pseudo.fill a bs).expand.length = bs.length ∧
    ∀ k < bs.length, (Pseudo.fill a bs).expand[k]? = bs[k]?.map fun b => .wrb (a + k) b) ∧
  (∀ (a : Nat) (text : List Char), (Pseudo.fills a text).wf = true →
    (Pseudo.fills a text).expand =
      (Pseudo.fill a (text.map fun c => BitVec.ofNat 8 c.toNat)).expand)

/-! ## The step (00_scope.md R7, 30_encoding.md R50) -/

/-- A step runs the decoded command: when the host's next transaction writes a word to CMD that
decodes to `i`, the step is `exec i` on the state with that transaction taken from the input and no
reply yet. Placing a command word for the next step (`withFetchWord`) comes to the same. -/
def Obligations.StepRunsTheDecodedCommand : Prop :=
  (∀ (s : State) (v : Word) (i : Instr) (rest : List Event),
    s.events = .host (.regWrite 0 v) :: rest → decode v = .ok i →
    step s = exec i { s with events := rest, reply := .nothing }) ∧
  ∀ (s : State) (i : Instr),
    step (s.withFetchWord 32 (encode i).toNat) = exec i { s with reply := .nothing }

/-- A step delivers the next event of the input, whatever it is, and an empty input leaves the
block as it is. The list of events and the idle step are the model's (log entries 2 and 3). -/
def Obligations.StepDeliversTheNextEvent : Prop :=
  ∀ s : State,
    (s.events = [] → step s = .next s) ∧
    (∀ (t : Transaction) (rest : List Event), s.events = .host t :: rest →
      step s = perform t { s with events := rest, reply := .nothing }) ∧
    (∀ rest : List Event, s.events = .platformReset :: rest →
      step s = .next (State.resetWith s.params rest))

/-- 20_memory.md R44: transactions take effect in the order the host issues them, one a step, each
completely before the next: after `k` steps exactly the first `k` events are gone, a run of
`k + 1` steps is the run of `k` and one step more, and the parameters are the same throughout.
The list of events is the model's (log entry 2). -/
def Obligations.RunsConsumeEventsInOrder : Prop :=
  ∀ (s t : State) (k : Nat), runsTo s k t →
    t.events = s.events.drop k ∧ t.params = s.params ∧
    ∀ u, step t = .next u ↔ runsTo s (k + 1) u

/-! ## Host transactions (20_memory.md) -/

/-- 20_memory.md R31. The reply is carried by the model's field `reply` (log entry 4). -/
def Obligations.RegReadReturnsTheRegister : Prop :=
  ∀ s : State,
    perform (.regRead 0) s = .next { s with reply := .word 0x00000000 } ∧
    perform (.regRead 1) s = .next { s with reply := .word s.off } ∧
    perform (.regRead 2) s = .next { s with reply := .word s.len } ∧
    perform (.regRead 3) s =
      .next { s with reply := .word ((s.crc.extractLsb' 0 16).setWidth 32) } ∧
    perform (.regRead 4) s = .next { s with reply := .word s.olen } ∧
    (∃ v : Word, perform (.regRead 5) s = .next { s with reply := .word v } ∧
      v.extractLsb' 0 3 = s.status.extractLsb' 0 3 ∧ v.getLsbD 8 = s.status.getLsbD 8 ∧
      ∀ k < 32, 3 ≤ k → k ≠ 8 → v.getLsbD k = false) ∧
    ∀ n, 5 < n → perform (.regRead n) s = .refused (.noSuchRegister n)

/-- 20_memory.md R32. -/
def Obligations.RegWriteStoresRunsOrIsIgnored : Prop :=
  ∀ (s : State) (v : Word),
    perform (.regWrite 1 v) s = .next { s with off := v } ∧
    perform (.regWrite 2 v) s = .next { s with len := v } ∧
    perform (.regWrite 3 v) s = .next s ∧
    perform (.regWrite 4 v) s = .next s ∧
    perform (.regWrite 5 v) s = .next s ∧
    (∀ i : Instr, v = encode i → perform (.regWrite 0 v) s = exec i s) ∧
    ((∀ i : Instr, v ≠ encode i) →
      perform (.regWrite 0 v) s = .next { s with status := withErr s.status 3 }) ∧
    ∀ n, 5 < n → perform (.regWrite n v) s = .refused (.noSuchRegister n)

/-- 20_memory.md R33: the named cell holds the byte and nothing else changes. -/
def Obligations.IbufWriteStoresOneCell : Prop :=
  ∀ (s : State) (a : Nat) (b : Byte),
    (a < s.params.inMax →
      ∃ m : Memory, perform (.ibufWrite a b) s = .next { s with ibuf := m } ∧
        readCell m a = some b ∧ ∀ x, x ≠ a → readCell m x = readCell s.ibuf x) ∧
    (s.params.inMax ≤ a → perform (.ibufWrite a b) s = .refused (.noSuchIbufCell a))

/-- 20_memory.md R34: the byte of the cell, no state change, a fault on an unwritten cell (R43), a
refusal outside the map (R42); and no operation writes IBUF, so the bytes can be read back after
any. The reply is carried by the model's field `reply` (log entry 4). -/
def Obligations.IbufReadReturnsTheCell : Prop :=
  (∀ (s : State) (a : Nat), a < s.params.inMax →
    (∀ b, readCell s.ibuf a = some b →
      perform (.ibufRead a) s = .next { s with reply := .byte b }) ∧
    (readCell s.ibuf a = none → perform (.ibufRead a) s = .fault (.unwrittenIbuf a))) ∧
  (∀ (s : State) (a : Nat), s.params.inMax ≤ a →
    perform (.ibufRead a) s = .refused (.noSuchIbufCell a)) ∧
  ∀ (i : Instr) (s t : State), exec i s = .next t →
    ∀ a, readCell t.ibuf a = readCell s.ibuf a

/-- 20_memory.md section 1, `ObufRead`: legal for every index below OUT_MAX, whatever OLEN is. The
reply is carried by the model's field `reply` (log entry 4). -/
def Obligations.ObufReadReturnsTheCell : Prop :=
  ∀ (s : State) (a : Nat),
    (a < s.params.inMax / 2 →
      (∀ b, readCell s.obuf a = some b →
        perform (.obufRead a) s = .next { s with reply := .byte b }) ∧
      (readCell s.obuf a = none → perform (.obufRead a) s = .fault (.unwrittenObuf a))) ∧
    (s.params.inMax / 2 ≤ a → perform (.obufRead a) s = .refused (.noSuchObufCell a))

/-- 20_memory.md R42: a transaction outside the map is refused, with no next state. -/
def Obligations.OutsideTheMapIsRefused : Prop :=
  ∀ s : State,
    (∀ n, 5 < n → perform (.regRead n) s = .refused (.noSuchRegister n) ∧
      ∀ v, perform (.regWrite n v) s = .refused (.noSuchRegister n)) ∧
    (∀ a, s.params.inMax ≤ a → perform (.ibufRead a) s = .refused (.noSuchIbufCell a) ∧
      ∀ b, perform (.ibufWrite a b) s = .refused (.noSuchIbufCell a)) ∧
    ∀ a, s.params.outMax ≤ a → perform (.obufRead a) s = .refused (.noSuchObufCell a)

/-- 20_memory.md section 5, unwritten cells: a read that touches one faults: the two buffer reads,
and an accepted operation whose read set holds one. Which cell the operation's fault names, an
unwritten one no later than the given one, is the model's choice (DESIGN CHOICE, log entry 7). -/
def Obligations.UnwrittenReadFaults : Prop :=
  (∀ (s : State) (a : Nat), a < s.params.inMax → readCell s.ibuf a = none →
    perform (.ibufRead a) s = .fault (.unwrittenIbuf a)) ∧
  (∀ (s : State) (a : Nat), a < s.params.outMax → readCell s.obuf a = none →
    perform (.obufRead a) s = .fault (.unwrittenObuf a)) ∧
  ∀ (i : Instr) (s : State) (k : Nat), s.off.toNat + s.len.toNat ≤ s.params.inMax →
    k < (match i with
      | .crc16 => s.len.toNat
      | .hexdet => min s.len.toNat s.params.hexWindow
      | .hex2bin => s.len.toNat) →
    readCell s.ibuf (s.off.toNat + k) = none →
    ∃ a, exec i s = .fault (.unwrittenIbuf a) ∧ readCell s.ibuf a = none ∧
      s.off.toNat ≤ a ∧ a ≤ s.off.toNat + k

/-- 20_memory.md section 2, the range check: OFF + LEN is compared with IN_MAX on natural numbers,
so a sum that would wrap is rejected too; a rejected command changes nothing but `STATUS.ERR`; the
empty range reads no cell and is accepted at every OFF up to IN_MAX. -/
def Obligations.RangeCheckDoesNotWrap : Prop :=
  (∀ (i : Instr) (s : State), s.params.inMax < s.off.toNat + s.len.toNat →
    exec i s = .next { s with status := withErr s.status 4 }) ∧
  ∀ (i : Instr) (s : State), s.len = 0 → s.off.toNat ≤ s.params.inMax →
    ∃ t, exec i s = .next t ∧ statusErr t.status = 0 ∧ t.off = s.off

/-- 20_memory.md section 2, read sets: an operation depends on no cell of IBUF outside its read
set. Replacing IBUF by a buffer that agrees on the read set changes nothing of the outcome but
IBUF itself. For HEXDET the read set is the window, so bytes beyond it are never seen. -/
def Obligations.OperationsReadOnlyTheirReadSet : Prop :=
  ∀ (i : Instr) (s : State) (m : Memory),
    (∀ k < readLength i s, readCell m (s.off.toNat + k) = readCell s.ibuf (s.off.toNat + k)) →
    (∀ t, exec i s = .next t → exec i { s with ibuf := m } = .next { t with ibuf := m }) ∧
    (∀ f, exec i s = .fault f → exec i { s with ibuf := m } = .fault f)

/-- 20_memory.md section 5: every transaction is idempotent when nothing comes between, the write
of a command word included. -/
def Obligations.TransactionsAreIdempotent : Prop :=
  ∀ (t : Transaction) (s s' : State), Memory.wf s.ibuf → Memory.wf s.obuf →
    perform t s = .next s' → perform t s' = .next s'

/-- A canonical buffer is determined by what its cells read as, so equal contents are equal
data. -/
def Obligations.CanonicalBufferIsUnique : Prop :=
  ∀ m m' : Memory, Memory.wf m → Memory.wf m' → (∀ a, readCell m a = readCell m' a) → m = m'

/-! ## State and reset (10_state.md, 00_scope.md, 70_reset_and_hazards.md) -/

/-- 10_state.md R22: after reset every register reads 0 and every cell of both buffers is
unwritten. The machine's reset state has the parameters of log entry 1. -/
def Obligations.ResetClearsRegistersAndBuffers : Prop :=
  (∀ (p : Params) (es : List Event),
    (State.resetWith p es).off = 0 ∧ (State.resetWith p es).len = 0 ∧
    (State.resetWith p es).crc = 0 ∧ (State.resetWith p es).olen = 0 ∧
    statusErr (State.resetWith p es).status = 0 ∧
    statusHexlike (State.resetWith p es).status = false ∧
    (State.resetWith p es).status = 0 ∧
    (∀ n ≤ 5, perform (.regRead n) (State.resetWith p es) =
      .next { State.resetWith p es with reply := .word 0 }) ∧
    ∀ a, readCell (State.resetWith p es).ibuf a = none ∧
      readCell (State.resetWith p es).obuf a = none) ∧
  State.reset = State.resetWith Params.default []

/-- 00_scope.md section 6: a write to a field of STATUS leaves the other bits as they were. -/
def Obligations.StatusFieldWritesLeaveTheRest : Prop :=
  ∀ (w : Word) (e : BitVec 3) (h : Bool),
    (withErr w e).extractLsb' 0 3 = e ∧
    (∀ k, 3 ≤ k → (withErr w e).getLsbD k = w.getLsbD k) ∧
    (withHexlike w h).getLsbD 8 = h ∧
    ∀ k, k ≠ 8 → (withHexlike w h).getLsbD k = w.getLsbD k

/-- 10_state.md R21, the table of write sets, row by row: what each event writes, and that it
writes nothing else. `reply` is the model's field (log entry 4). -/
def Obligations.WriteSetsAreExact : Prop :=
  (∀ (s : State) (v : Word), perform (.regWrite 1 v) s = .next { s with off := v }) ∧
  (∀ (s : State) (v : Word), perform (.regWrite 2 v) s = .next { s with len := v }) ∧
  (∀ (s : State) (v : Word) (n : Nat), n = 3 ∨ n = 4 ∨ n = 5 →
    perform (.regWrite n v) s = .next s) ∧
  (∀ (s t : State) (a : Nat) (b : Byte), perform (.ibufWrite a b) s = .next t →
    t = { s with ibuf := t.ibuf } ∧ readCell t.ibuf a = some b ∧
    ∀ x, x ≠ a → readCell t.ibuf x = readCell s.ibuf x) ∧
  (∀ (s t : State) (n : Nat), perform (.regRead n) s = .next t → t = { s with reply := t.reply }) ∧
  (∀ (s t : State) (a : Nat), perform (.ibufRead a) s = .next t →
    t = { s with reply := t.reply }) ∧
  (∀ (s t : State) (a : Nat), perform (.obufRead a) s = .next t →
    t = { s with reply := t.reply }) ∧
  (∀ (s : State) (v : Word), (∀ i, v ≠ encode i) →
    perform (.regWrite 0 v) s = .next { s with status := withErr s.status 3 }) ∧
  (∀ (s : State) (i : Instr), s.params.inMax < s.off.toNat + s.len.toNat →
    perform (.regWrite 0 (encode i)) s = .next { s with status := withErr s.status 4 }) ∧
  (∀ s t : State, s.off.toNat + s.len.toNat ≤ s.params.inMax →
    perform (.regWrite 0 (encode .crc16)) s = .next t →
    t = { s with crc := t.crc, status := withErr s.status 0 }) ∧
  (∀ s t : State, s.off.toNat + s.len.toNat ≤ s.params.inMax →
    perform (.regWrite 0 (encode .hexdet)) s = .next t →
    t = { s with status := withErr (withHexlike s.status (statusHexlike t.status)) 0 }) ∧
  (∀ s t : State, s.off.toNat + s.len.toNat ≤ s.params.inMax →
    perform (.regWrite 0 (encode .hex2bin)) s = .next t →
    (t = { s with olen := t.olen, obuf := t.obuf, status := withErr s.status 0 } ∧
      (∀ k < t.olen.toNat, (readCell t.obuf k).isSome = true) ∧
      ∀ k, t.olen.toNat ≤ k → readCell t.obuf k = readCell s.obuf k) ∨
    t = { s with olen := 0, status := withErr s.status 1 } ∨
    t = { s with olen := 0, status := withErr s.status 2 }) ∧
  (∀ s : State, deliver .platformReset s = .next (State.resetWith s.params s.events))

/-- 00_scope.md R8: what an operation produces depends on nothing but the bytes of its range, the
length of the range and the parameters. The two states may differ in everything else, the place of
the range in IBUF included. -/
def Obligations.OperationsArePure : Prop :=
  ∀ (s₁ s₂ : State) (bs : List Byte),
    s₁.params = s₂.params →
    s₁.off.toNat + s₁.len.toNat ≤ s₁.params.inMax →
    s₂.off.toNat + s₂.len.toNat ≤ s₂.params.inMax →
    s₁.len.toNat = bs.length → s₂.len.toNat = bs.length →
    cellsHold s₁.ibuf s₁.off.toNat bs → cellsHold s₂.ibuf s₂.off.toNat bs →
    ∀ i : Instr, ∃ t₁ t₂, exec i s₁ = .next t₁ ∧ exec i s₂ = .next t₂ ∧
      statusErr t₁.status = statusErr t₂.status ∧
      (i = .crc16 → t₁.crc = t₂.crc) ∧
      (i = .hexdet → statusHexlike t₁.status = statusHexlike t₂.status) ∧
      (i = .hex2bin → t₁.olen = t₂.olen ∧
        ∀ k < t₁.olen.toNat, readCell t₁.obuf k = readCell t₂.obuf k)

/-- The invariant holds in the reset state of every block whose parameters meet their constraints,
and in the machine's own reset state. -/
def Obligations.ResetMeetsTheInvariant : Prop :=
  (∀ (p : Params) (es : List Event), p.wf = true → Inv (State.resetWith p es)) ∧ Inv State.reset

/-- Every step keeps the invariant: canonical buffers inside their capacities, CRC[31:16] and the
reserved bits of STATUS 0, ERR at most 4, OLEN at most OUT_MAX, and the current output
OBUF[0 .. OLEN-1] written. -/
def Obligations.StepKeepsTheInvariant : Prop :=
  ∀ s t : State, Inv s → step s = .next t → Inv t

/-- 70_reset_and_hazards.md section 2: a transaction completes exactly when the map has it and it
reads no unwritten cell; nothing else has to be set up. -/
def Obligations.SafeTransactionsAlwaysComplete : Prop :=
  ∀ (s : State) (t : Transaction), (∃ s', perform t s = .next s') ↔ t.safe s

/-! ## Checksum (40_checksum.md) -/

/-- 40_checksum.md R65: one bit, bit by bit: the result is the right shift, exclusive-ored with
0xA001 when the feedback bit is 1. -/
def Obligations.CrcBitShiftsAndFeedsBack : Prop :=
  ∀ (c : Remainder) (d : Bool),
    let s := if (c.getLsbD 0 ^^ d) = true then crcBit c d ^^^ 0xA001#16 else crcBit c d
    s.getLsbD 15 = false ∧ ∀ k < 15, s.getLsbD k = c.getLsbD (k + 1)

/-- 40_checksum.md R66: the eight bits of a byte, bit 0 first and bit 7 last. -/
def Obligations.CrcByteTakesBitsLowFirst : Prop :=
  ∀ (c : Remainder) (b : Byte), crcByte c b =
    crcBit (crcBit (crcBit (crcBit (crcBit (crcBit (crcBit (crcBit c
      (b.getLsbD 0)) (b.getLsbD 1)) (b.getLsbD 2)) (b.getLsbD 3)) (b.getLsbD 4)) (b.getLsbD 5))
      (b.getLsbD 6)) (b.getLsbD 7)

/-- 40_checksum.md R67 and R70: the empty sequence gives 0, each further byte is fed to the
running value after the ones before it, and nothing is done to the result. -/
def Obligations.Crc16TakesBytesInOrder : Prop :=
  crc16 [] = 0x0000#16 ∧ ∀ (bs : List Byte) (b : Byte), crc16 (bs ++ [b]) = crcByte (crc16 bs) b

/-- 40_checksum.md section 1: the equivalent byte form. -/
def Obligations.CrcByteFormsAgree : Prop :=
  ∀ (c : Remainder) (b : Byte), crcByteX c b = crcByte c b

/-- 40_checksum.md section 1: the equivalent table form, with the table made of `crc_byte` from
0x0000. -/
def Obligations.CrcTableFormAgrees : Prop :=
  (∀ v : Byte, crcTable v = crcByte 0x0000#16 v) ∧
  ∀ (c : Remainder) (b : Byte), crcByte c b =
    (c >>> 8) ^^^ crcTable ((c ^^^ b.setWidth 16).extractLsb' 0 8)

/-- 40_checksum.md section 2, laws (a) and (b): the step is linear in the running value and the
data, and so is the whole on sequences of equal length. -/
def Obligations.ChecksumIsLinear : Prop :=
  (∀ (c₁ c₂ : Remainder) (d₁ d₂ : Bool),
    crcBit (c₁ ^^^ c₂) (d₁ ^^ d₂) = crcBit c₁ d₁ ^^^ crcBit c₂ d₂) ∧
  (∀ (c₁ c₂ : Remainder) (b₁ b₂ : Byte),
    crcByte (c₁ ^^^ c₂) (b₁ ^^^ b₂) = crcByte c₁ b₁ ^^^ crcByte c₂ b₂) ∧
  ∀ as bs : List Byte, as.length = bs.length →
    crc16 (List.zipWith (· ^^^ ·) as bs) = crc16 as ^^^ crc16 bs

/-- 40_checksum.md section 2, laws (c) and (f): zero bytes give 0 and leading zero bytes do not
change the checksum; a checksum of two parts is the loop over the second from the first's. -/
def Obligations.LeadingZerosAndComposition : Prop :=
  (∀ n : Nat, crc16 (List.replicate n 0x00#8) = 0) ∧
  (∀ (n : Nat) (bs : List Byte), crc16 (List.replicate n 0x00#8 ++ bs) = crc16 bs) ∧
  ∀ as bs : List Byte, crc16 (as ++ bs) = bs.foldl crcByte (crc16 as)

/-- 40_checksum.md section 2, law (d): appending the checksum low byte first gives 0. -/
def Obligations.ResidueLowByteFirstIsZero : Prop :=
  ∀ bs : List Byte,
    crc16 (bs ++ [(crc16 bs).extractLsb' 0 8, (crc16 bs).extractLsb' 8 8]) = 0

/-- 40_checksum.md section 2, law (e), and 70_reset_and_hazards.md section 3: appending the
checksum as the frame's field does, high byte first, gives no fixed value, with or without the
field's two zero bytes. -/
def Obligations.ResidueHighByteFirstIsNotFixed : Prop :=
  (¬ ∃ r : Remainder, ∀ bs : List Byte,
    crc16 (bs ++ [(crc16 bs).extractLsb' 8 8, (crc16 bs).extractLsb' 0 8]) = r) ∧
  ¬ ∃ r : Remainder, ∀ bs : List Byte,
    crc16 (bs ++ [(crcField (crc16 bs)).f0, (crcField (crc16 bs)).f1, (crcField (crc16 bs)).f2,
      (crcField (crc16 bs)).f3]) = r

/-- 40_checksum.md R72, CRC16: the command word; the accepted operation latches the checksum of the
range, clears ERR and changes nothing else; the rejection; the fault; the corner cases and the
worked example. -/
def Obligations.Crc16LatchesTheChecksum : Prop :=
  decode 0x00000001#32 = .ok .crc16 ∧
  (∀ (s : State) (bs : List Byte), s.off.toNat + s.len.toNat ≤ s.params.inMax →
    s.len.toNat = bs.length → cellsHold s.ibuf s.off.toNat bs →
    exec .crc16 s =
      .next { s with crc := (crc16 bs).setWidth 32, status := withErr s.status 0 }) ∧
  (∀ s : State, s.params.inMax < s.off.toNat + s.len.toNat →
    exec .crc16 s = .next { s with status := withErr s.status 4 }) ∧
  (∀ (s : State) (k : Nat), s.off.toNat + s.len.toNat ≤ s.params.inMax → k < s.len.toNat →
    readCell s.ibuf (s.off.toNat + k) = none → ∃ a, exec .crc16 s = .fault (.unwrittenIbuf a)) ∧
  (∀ s : State, s.len = 0 → s.off.toNat ≤ s.params.inMax →
    exec .crc16 s = .next { s with crc := 0x00000000, status := withErr s.status 0 }) ∧
  (∀ bs : List Byte, (∀ b ∈ bs, b = 0x00#8) → crc16 bs = 0) ∧
  (∀ s t : State, exec .crc16 s = .next t → exec .crc16 t = .next t) ∧
  ∀ s : State, s.off = 0 → s.len = 9 → 9 ≤ s.params.inMax →
    cellsHold s.ibuf 0 [0x31, 0x32, 0x33, 0x34, 0x35, 0x36, 0x37, 0x38, 0x39] →
    ∃ t, exec .crc16 s = .next t ∧ statusErr t.status = 0 ∧
      perform (.regRead 3) t = .next { t with reply := .word 0x0000BB3D }

/-- 40_checksum.md R73: the field's bytes, its value, and that the value is what `RegRead(3)`
returns after the CRC16 that computed it. The reply is carried by the model's field `reply` (log
entry 4). -/
def Obligations.ChecksumFieldIsBigEndian : Prop :=
  (∀ r : Remainder, crcField r =
    { f0 := 0x00, f1 := 0x00, f2 := r.extractLsb' 8 8, f3 := r.extractLsb' 0 8 }) ∧
  (∀ f : ChecksumField, (fieldValue f).toNat =
    f.f0.toNat * 2 ^ 24 + f.f1.toNat * 2 ^ 16 + f.f2.toNat * 2 ^ 8 + f.f3.toNat) ∧
  (∀ r : Remainder, fieldValue (crcField r) = r.setWidth 32) ∧
  ∀ (s t : State) (bs : List Byte), s.off.toNat + s.len.toNat ≤ s.params.inMax →
    s.len.toNat = bs.length → cellsHold s.ibuf s.off.toNat bs → exec .crc16 s = .next t →
    perform (.regRead 3) t =
      .next { t with reply := .word (fieldValue (crcField (crc16 bs))) }

/-- 40_checksum.md R74: the comparison a user makes, by CHECK_WIDTH; with 32 a field whose first
two bytes are not 0 never matches. -/
def Obligations.ComparisonFollowsCheckWidth : Prop :=
  (∀ (f : ChecksumField) (r : Remainder),
    (crcMatches .bits32 f r = true ↔ fieldValue f = r.setWidth 32) ∧
    (crcMatches .bits16 f r = true ↔ (fieldValue f).extractLsb' 0 16 = r)) ∧
  (∀ (f : ChecksumField) (r : Remainder), f.f0 ≠ 0 ∨ f.f1 ≠ 0 → crcMatches .bits32 f r = false) ∧
  Params.default.checkWidth = .bits32

/-- 40_checksum.md section 4, the frame: the fields follow one another without a gap, their sizes
are the table's, the checksum covers the `data_length` bytes from the codec id to the trailer, and
the whole frame is `8 + data_length + 4` bytes. That no layout exists below 3 is the model's
inference (log entry 13). -/
def Obligations.FrameLayoutIsContiguous : Prop :=
  (∀ d < 3, frameLayout d = none) ∧
  ∀ d, 3 ≤ d → ∃ f, frameLayout d = some f ∧
    f.preamble = ⟨0, 4⟩ ∧ f.dataLength = ⟨4, 4⟩ ∧ f.codecId = ⟨8, 1⟩ ∧ f.recordCount = ⟨9, 1⟩ ∧
    f.records = ⟨10, d - 3⟩ ∧ f.trailer.size = 1 ∧ f.checksum.size = 4 ∧
    f.records.offset + f.records.size = f.trailer.offset ∧
    f.trailer.offset + f.trailer.size = f.checksum.offset ∧
    f.checksum.offset + f.checksum.size = frameSize d ∧
    ∀ s, (coveredSpan s d).offset = s + f.codecId.offset ∧
      (coveredSpan s d).offset + (coveredSpan s d).size =
        s + f.trailer.offset + f.trailer.size

/-! ## Hex normalizer (41_hex_normalizer.md) -/

/-- 41_hex_normalizer.md R85: the two classes, value by value, and their sizes. -/
def Obligations.ByteClassesAreAscii : Prop :=
  (∀ b : Byte, isHexDigit b = true ↔
    (0x30 ≤ b.toNat ∧ b.toNat ≤ 0x39) ∨ (0x41 ≤ b.toNat ∧ b.toNat ≤ 0x46) ∨
    (0x61 ≤ b.toNat ∧ b.toNat ≤ 0x66)) ∧
  (∀ b : Byte, isWs b = true ↔
    b.toNat = 0x20 ∨ b.toNat = 0x09 ∨ b.toNat = 0x0D ∨ b.toNat = 0x0A) ∧
  (∀ b : Byte, inClass b = true ↔ isHexDigit b = true ∨ isWs b = true) ∧
  ((List.range 256).filter fun n => isHexDigit (BitVec.ofNat 8 n)).length = 22 ∧
  ((List.range 256).filter fun n => isWs (BitVec.ofNat 8 n)).length = 4 ∧
  ((List.range 256).filter fun n => inClass (BitVec.ofNat 8 n)).length = 26

/-- 41_hex_normalizer.md R86: digit values, defined for HEXDIGIT bytes only, the same for both
cases of a letter. -/
def Obligations.HexDigitValues : Prop :=
  ∀ b : Byte,
    (0x30 ≤ b.toNat → b.toNat ≤ 0x39 → (hexVal b).map BitVec.toNat = some (b.toNat - 0x30)) ∧
    (0x41 ≤ b.toNat → b.toNat ≤ 0x46 →
      (hexVal b).map BitVec.toNat = some (b.toNat - 0x41 + 10)) ∧
    (0x61 ≤ b.toNat → b.toNat ≤ 0x66 →
      (hexVal b).map BitVec.toNat = some (b.toNat - 0x61 + 10)) ∧
    (isHexDigit b = false → hexVal b = none) ∧
    (0x41 ≤ b.toNat → b.toNat ≤ 0x46 → hexVal (b + 0x20#8) = hexVal b)

/-- 41_hex_normalizer.md R87: both length tests on the raw length, and every byte of the window in
a class; bytes beyond the window are not looked at. -/
def Obligations.DetectionTestsLengthAndWindow : Prop :=
  (∀ (window : Nat) (bs : List Byte), looksLikeHex window bs = true ↔
    8 ≤ bs.length ∧ bs.length % 2 ≠ 1 ∧
    ∀ k < min bs.length window, ∀ b, bs[k]? = some b → inClass b = true) ∧
  (∀ (window : Nat) (as bs : List Byte), as.length = bs.length →
    (∀ k < window, as[k]? = bs[k]?) → looksLikeHex window as = looksLikeHex window bs) ∧
  Params.default.hexWindow = 64

/-- 41_hex_normalizer.md R90: stripping removes exactly the WS bytes, wherever they stand, and
keeps every occurrence of every other byte, in order. -/
def Obligations.StripRemovesWhitespaceEverywhere : Prop :=
  ∀ bs : List Byte,
    (∀ b, b ∈ strip bs ↔ b ∈ bs ∧ isWs b = false) ∧ (strip bs).Sublist bs ∧
    (∀ (as : List Byte) (w : Byte), isWs w = true →
      strip (as ++ w :: bs) = strip as ++ strip bs) ∧
    ∀ (as : List Byte) (b : Byte), isWs b = false →
      strip (as ++ b :: bs) = strip as ++ b :: strip bs

/-- 41_hex_normalizer.md R91: NON_HEX when some stripped byte is no digit, else ODD_LENGTH when
their number is odd, else the bytes of the digit pairs, the first digit of a pair in bits 7:4. -/
def Obligations.ConversionDecodesNibblePairs : Prop :=
  ∀ bs : List Byte,
    (hexToBinary bs = .error .nonHex ↔ ∃ b ∈ strip bs, isHexDigit b = false) ∧
    (hexToBinary bs = .error .oddLength ↔
      (∀ b ∈ strip bs, isHexDigit b = true) ∧ (strip bs).length % 2 = 1) ∧
    ((∃ x, hexToBinary bs = .ok x) ↔
      (∀ b ∈ strip bs, isHexDigit b = true) ∧ (strip bs).length % 2 = 0) ∧
    ∀ x, hexToBinary bs = .ok x →
      x.length = (strip bs).length / 2 ∧
      ∀ k < x.length, ∃ (h l : Byte) (dh dl : Nibble),
        (strip bs)[2 * k]? = some h ∧ (strip bs)[2 * k + 1]? = some l ∧
        hexVal h = some dh ∧ hexVal l = some dl ∧
        x[k]? = some ((dh.setWidth 8 <<< 4) ||| dl.setWidth 8)

/-- 41_hex_normalizer.md section 3: the serial form computes the same result. -/
def Obligations.SerialConversionAgrees : Prop :=
  ∀ bs : List Byte, hexToBinarySerial bs = hexToBinary bs

/-- 41_hex_normalizer.md section 3, the length law: the output of a conversion of a range that fits
IBUF fits OBUF. -/
def Obligations.ConversionOutputFits : Prop :=
  ∀ (p : Params) (bs x : List Byte), hexToBinary bs = .ok x →
    x.length = (strip bs).length / 2 ∧ x.length ≤ bs.length / 2 ∧
    (bs.length ≤ p.inMax → x.length ≤ p.outMax)

/-- 41_hex_normalizer.md section 3, case law: replacing letters by the same letters in the other
case does not change the result of a conversion. -/
def Obligations.ConversionIgnoresCase : Prop :=
  ∀ as bs : List Byte,
    List.Forall₂ (fun a b : Byte => a = b ∨
      (0x41#8 ≤ a ∧ a ≤ 0x46#8 ∧ b = a + 0x20#8) ∨
      (0x61#8 ≤ a ∧ a ≤ 0x66#8 ∧ b = a - 0x20#8)) as bs →
    hexToBinary as = hexToBinary bs

/-- 41_hex_normalizer.md section 3, whitespace law: inserting (or, read backwards, removing) a WS
byte anywhere does not change the result of a conversion, errors included; it can change the
result of a detection. -/
def Obligations.ConversionIgnoresWhitespace : Prop :=
  (∀ (as bs : List Byte) (w : Byte), isWs w = true →
    hexToBinary (as ++ w :: bs) = hexToBinary (as ++ bs)) ∧
  ∃ (as bs : List Byte) (w : Byte), isWs w = true ∧
    looksLikeHex 64 (as ++ bs) = true ∧ looksLikeHex 64 (as ++ w :: bs) = false

/-- 41_hex_normalizer.md section 3, round trip: the digits that write the bytes `x` convert to
`x`. -/
def Obligations.ConversionRoundTrip : Prop :=
  ∀ x e : List Byte, e.length = 2 * x.length →
    (∀ k < x.length, ∃ b h l : Byte, x[k]? = some b ∧ e[2 * k]? = some h ∧
      e[2 * k + 1]? = some l ∧ hexVal h = some (b.extractLsb' 4 4) ∧
      hexVal l = some (b.extractLsb' 0 4)) →
    hexToBinary e = .ok x

/-- 41_hex_normalizer.md R98: an empty or all-WS sequence converts to the empty sequence, and an
all-WS one of even length at least 8 is also hex-like. -/
def Obligations.WhitespaceOnlyConvertsToNothing : Prop :=
  hexToBinary [] = .ok [] ∧
  ∀ bs : List Byte, (∀ b ∈ bs, isWs b = true) →
    strip bs = [] ∧ hexToBinary bs = .ok [] ∧
    ∀ window : Nat, 8 ≤ bs.length → bs.length % 2 = 0 → looksLikeHex window bs = true

/-- 41_hex_normalizer.md section 2: for a range no longer than the window, a positive detection
leaves one way for the conversion to fail, an odd number of WS bytes; and a range that begins with
0x00 is never hex-like. -/
def Obligations.DetectionWithinWindowBoundsConversion : Prop :=
  (∀ (window : Nat) (bs : List Byte), bs.length ≤ window → looksLikeHex window bs = true →
    (∀ b ∈ bs, inClass b = true) ∧
    ((∃ x, hexToBinary bs = .ok x) ↔ (bs.filter isWs).length % 2 = 0)) ∧
  ∀ (window : Nat) (bs : List Byte), 1 ≤ window → looksLikeHex window (0x00#8 :: bs) = false

/-- 41_hex_normalizer.md R94, HEXDET: the command word; the accepted operation latches the answer,
clears ERR and changes nothing else, reading only the window; the rejection; the fault; the corner
cases and the worked example. -/
def Obligations.HexdetLatchesTheDetection : Prop :=
  decode 0x00000002#32 = .ok .hexdet ∧
  (∀ (s : State) (bs : List Byte), s.off.toNat + s.len.toNat ≤ s.params.inMax →
    s.len.toNat = bs.length →
    cellsHold s.ibuf s.off.toNat (bs.take s.params.hexWindow) →
    exec .hexdet s = .next { s with
      status := withErr (withHexlike s.status (looksLikeHex s.params.hexWindow bs)) 0 }) ∧
  (∀ s : State, s.off.toNat + s.len.toNat ≤ s.params.inMax →
    cellsWritten s.ibuf s.off.toNat (min s.len.toNat s.params.hexWindow) →
    ∃ t, exec .hexdet s = .next t ∧
      (s.len.toNat < 8 ∨ s.len.toNat % 2 = 1 → statusHexlike t.status = false) ∧
      ((∃ k b, k < min s.len.toNat s.params.hexWindow ∧
          readCell s.ibuf (s.off.toNat + k) = some b ∧ inClass b = false) →
        statusHexlike t.status = false) ∧
      (8 ≤ s.len.toNat → s.len.toNat % 2 = 0 →
        (∀ k < min s.len.toNat s.params.hexWindow, ∀ b,
          readCell s.ibuf (s.off.toNat + k) = some b → inClass b = true) →
        statusHexlike t.status = true)) ∧
  (∀ s : State, s.params.inMax < s.off.toNat + s.len.toNat →
    exec .hexdet s = .next { s with status := withErr s.status 4 }) ∧
  (∀ (s : State) (k : Nat), s.off.toNat + s.len.toNat ≤ s.params.inMax →
    k < min s.len.toNat s.params.hexWindow → readCell s.ibuf (s.off.toNat + k) = none →
    ∃ a, exec .hexdet s = .fault (.unwrittenIbuf a)) ∧
  looksLikeHex 64 (List.replicate 8 0x20#8) = true ∧
  ∀ s : State, s.off = 0 → s.len = 8 → 8 ≤ s.params.inMax → 8 ≤ s.params.hexWindow →
    cellsHold s.ibuf 0 [0x30, 0x31, 0x41, 0x62, 0x20, 0x09, 0x0D, 0x0A] →
    ∃ t, exec .hexdet s = .next t ∧
      perform (.regRead 5) t = .next { t with reply := .word 0x00000100 }

/-- 41_hex_normalizer.md R95, HEX2BIN: the command word; success stores the bytes, their number and
ERR = 0 and keeps the rest of OBUF; a conversion error stores OLEN = 0 and its code and nothing
else; the rejection; the fault; the corner cases and the worked example. HEXLIKE is neither
changed nor consulted. -/
def Obligations.Hex2binConvertsTheRange : Prop :=
  decode 0x00000003#32 = .ok .hex2bin ∧
  (∀ (s : State) (bs x : List Byte), s.off.toNat + s.len.toNat ≤ s.params.inMax →
    s.len.toNat = bs.length → cellsHold s.ibuf s.off.toNat bs → hexToBinary bs = .ok x →
    ∃ m : Memory, exec .hex2bin s = .next { s with
        obuf := m, olen := BitVec.ofNat 32 x.length, status := withErr s.status 0 } ∧
      x.length < 2 ^ 32 ∧ x.length ≤ s.params.outMax ∧
      (∀ k < x.length, readCell m k = x[k]?) ∧
      ∀ k, x.length ≤ k → readCell m k = readCell s.obuf k) ∧
  (∀ (s : State) (bs : List Byte), s.off.toNat + s.len.toNat ≤ s.params.inMax →
    s.len.toNat = bs.length → cellsHold s.ibuf s.off.toNat bs →
    (hexToBinary bs = .error .oddLength →
      exec .hex2bin s = .next { s with olen := 0, status := withErr s.status 1 }) ∧
    (hexToBinary bs = .error .nonHex →
      exec .hex2bin s = .next { s with olen := 0, status := withErr s.status 2 })) ∧
  (∀ s : State, s.params.inMax < s.off.toNat + s.len.toNat →
    exec .hex2bin s = .next { s with status := withErr s.status 4 }) ∧
  (∀ (s : State) (k : Nat), s.off.toNat + s.len.toNat ≤ s.params.inMax → k < s.len.toNat →
    readCell s.ibuf (s.off.toNat + k) = none →
    ∃ a, exec .hex2bin s = .fault (.unwrittenIbuf a)) ∧
  (∀ s : State, s.len = 0 → s.off.toNat ≤ s.params.inMax →
    exec .hex2bin s = .next { s with olen := 0, status := withErr s.status 0 }) ∧
  (∀ bs : List Byte, (∀ b ∈ bs, isWs b = true) → hexToBinary bs = .ok []) ∧
  hexToBinary [0x34, 0x20, 0x31] = .ok [0x41] ∧
  hexToBinary [0x30, 0x78, 0x31, 0x32] = .error .nonHex ∧
  (∀ b : Byte, isHexDigit b = true → hexToBinary [b] = .error .oddLength) ∧
  hexToBinary [0x30, 0x31, 0x41, 0x62, 0x20, 0x09, 0x0D, 0x0A] = .ok [0x01, 0xAB]

/-! ## Errors (60_exceptions.md) -/

/-- 60_exceptions.md R111: the encoding of ERR, and that a write to CMD leaves one of its values,
never 5, 6 or 7. -/
def Obligations.ErrCodesAreZeroToFour : Prop :=
  errValue .ok = 0 ∧ errValue .oddLength = 1 ∧ errValue .nonHex = 2 ∧
  errValue .illegalCmd = 3 ∧ errValue .range = 4 ∧
  ∀ (s t : State) (v : Word), perform (.regWrite 0 v) s = .next t →
    (statusErr t.status).toNat ≤ 4

/-- 60_exceptions.md R112: an accepted CRC16 or HEXDET ends with ERR = 0, and no transaction other
than a write to CMD changes STATUS. -/
def Obligations.WhatCannotFail : Prop :=
  (∀ (s t : State) (i : Instr), i = .crc16 ∨ i = .hexdet →
    s.off.toNat + s.len.toNat ≤ s.params.inMax →
    perform (.regWrite 0 (encode i)) s = .next t → statusErr t.status = 0) ∧
  ∀ (s t : State) (tr : Transaction), (∀ v, tr ≠ .regWrite 0 v) →
    perform tr s = .next t → t.status = s.status

/-- 60_exceptions.md R113: one code a write to CMD, the first that applies: illegal word, range,
non-hex, odd length. -/
def Obligations.ErrorPriority : Prop :=
  ∀ (s : State) (v : Word),
    ((∀ i, v ≠ encode i) →
      ∃ t, perform (.regWrite 0 v) s = .next t ∧ statusErr t.status = 3) ∧
    (∀ i, v = encode i → s.params.inMax < s.off.toNat + s.len.toNat →
      ∃ t, perform (.regWrite 0 v) s = .next t ∧ statusErr t.status = 4) ∧
    (∀ bs : List Byte, s.off.toNat + s.len.toNat ≤ s.params.inMax → s.len.toNat = bs.length →
      cellsHold s.ibuf s.off.toNat bs →
      (v = encode .hex2bin → (∃ b ∈ bs, isWs b = false ∧ isHexDigit b = false) →
        ∃ t, perform (.regWrite 0 v) s = .next t ∧ statusErr t.status = 2) ∧
      (v = encode .hex2bin → (∀ b ∈ bs, isWs b = true ∨ isHexDigit b = true) →
        (bs.filter isHexDigit).length % 2 = 1 →
        ∃ t, perform (.regWrite 0 v) s = .next t ∧ statusErr t.status = 1) ∧
      (v = encode .hex2bin → (∀ b ∈ bs, isWs b = true ∨ isHexDigit b = true) →
        (bs.filter isHexDigit).length % 2 = 0 →
        ∃ t, perform (.regWrite 0 v) s = .next t ∧ statusErr t.status = 0) ∧
      (v = encode .crc16 ∨ v = encode .hexdet →
        ∃ t, perform (.regWrite 0 v) s = .next t ∧ statusErr t.status = 0))

/-- 60_exceptions.md section 3: after any write to CMD, an error or not, the block is ready for the
next transaction: every transaction that would have completed before it completes after it. -/
def Obligations.ErrorsLeaveTheBlockReady : Prop :=
  ∀ (s t : State) (v : Word), perform (.regWrite 0 v) s = .next t →
    ∀ tr : Transaction, (∃ u, perform tr s = .next u) → ∃ u, perform tr t = .next u
end

