-- ==== Sys2Proof/Laws/Hex.lean ====
section
/-! SUPPORT. The small lemmas of the hex functions: what a digit sequence's values are, and what
the digit pairs are. -/

namespace Sys2Proof.Machine

/-- A byte has a digit value exactly when it is in class HEXDIGIT (41_hex_normalizer.md R86). -/
theorem hexVal_isSome (b : Byte) : (hexVal b).isSome = isHexDigit b := by
  simp only [hexVal, isHexDigit]
  split_ifs with h1 h2 h3 <;> simp_all

theorem hexVal_eq_none_iff (b : Byte) : hexVal b = none ↔ isHexDigit b = false := by
  rw [← hexVal_isSome]
  cases hexVal b <;> simp

@[simp] theorem digitValues_nil : digitValues [] = some [] := rfl

@[simp] theorem digitValues_cons (b : Byte) (bs : List Byte) :
    digitValues (b :: bs) =
      (hexVal b).bind fun d => (digitValues bs).map fun ds => d :: ds := by
  cases hb : hexVal b <;> cases hbs : digitValues bs <;> simp [digitValues, hb, hbs]

/-- A digit sequence's values, one value a byte. -/
theorem digitValues_eq_some {bs : List Byte} {ds : List Nibble} :
    digitValues bs = some ds ↔ bs.map hexVal = ds.map some := by
  induction bs generalizing ds with
  | nil => cases ds <;> simp [digitValues]
  | cons b bs ih =>
    cases hb : hexVal b with
    | none => cases ds <;> simp [digitValues, hb]
    | some d =>
      cases hbs : digitValues bs with
      | none =>
        have h := fun ds => @ih ds
        simp only [hbs, reduceCtorEq, false_iff] at h
        cases ds with
        | nil => simp [digitValues, hb, hbs]
        | cons d' ds => simpa [digitValues, hb, hbs] using fun _ => h ds
      | some ds' =>
        have h := fun ds => @ih ds
        simp only [hbs, Option.some.injEq] at h
        cases ds with
        | nil => simp [digitValues, hb, hbs]
        | cons d' ds => simp [digitValues, hb, hbs, h]

/-- There are no values when some byte is no digit, and only then. -/
theorem digitValues_eq_none {bs : List Byte} :
    digitValues bs = none ↔ ∃ b ∈ bs, isHexDigit b = false := by
  induction bs with
  | nil => simp [digitValues]
  | cons b bs ih =>
    cases hb : hexVal b with
    | none => simp [digitValues, hb, (hexVal_eq_none_iff b).1 hb]
    | some d =>
      have hd : isHexDigit b = true := by rw [← hexVal_isSome, hb]; rfl
      cases hbs : digitValues bs with
      | none => simpa [digitValues, hb, hbs, hd] using ih.1 hbs
      | some ds =>
        have : ¬ ∃ b ∈ bs, isHexDigit b = false := fun h => by simp [ih.2 h] at hbs
        simpa [digitValues, hb, hbs, hd] using this

theorem digitValues_length {bs : List Byte} {ds : List Nibble} (h : digitValues bs = some ds) :
    ds.length = bs.length := by
  have := congrArg List.length (digitValues_eq_some.1 h)
  simpa using this.symm

@[simp] theorem pairBytes_length : ∀ ds : List Nibble, (pairBytes ds).length = ds.length / 2
  | [] => rfl
  | [_] => by simp [pairBytes]
  | _ :: _ :: ds => by simp only [pairBytes, List.length_cons, pairBytes_length ds]; omega

/-- Output byte `k` is made of digits `2k` and `2k+1` (41_hex_normalizer.md R91). -/
theorem pairBytes_getElem? : ∀ (ds : List Nibble) (k : Nat) (h l : Nibble),
    ds[2 * k]? = some h → ds[2 * k + 1]? = some l → (pairBytes ds)[k]? = some (h ++ l)
  | [], _, _, _, h0, _ => by simp at h0
  | [_], k, _, _, _, h1 => by simp at h1
  | _ :: _ :: ds, 0, _, _, h0, h1 => by simp_all [pairBytes]
  | _ :: _ :: ds, k + 1, h, l, h0, h1 => by
    rw [show 2 * (k + 1) = 2 * k + 1 + 1 by omega] at h0 h1
    simp only [List.getElem?_cons_succ] at h0 h1
    simpa [pairBytes] using pairBytes_getElem? ds k h l h0 h1

/-- The conversion, case by case. -/
theorem hexToBinary_cases (bs : List Byte) :
    (hexToBinary bs = .error .nonHex ∧ ∃ b ∈ strip bs, isHexDigit b = false) ∨
    ∃ ds, digitValues (strip bs) = some ds ∧ ds.length = (strip bs).length ∧
      ((hexToBinary bs = .error .oddLength ∧ ds.length % 2 = 1) ∨
        (hexToBinary bs = .ok (pairBytes ds) ∧ ds.length % 2 = 0)) := by
  cases h : digitValues (strip bs) with
  | none => exact .inl ⟨by simp [hexToBinary, h], digitValues_eq_none.1 h⟩
  | some ds =>
    refine .inr ⟨ds, rfl, digitValues_length h, ?_⟩
    rcases Nat.mod_two_eq_zero_or_one ds.length with hp | hp
    · exact .inr ⟨by simp [hexToBinary, h, hp], hp⟩
    · exact .inl ⟨by simp [hexToBinary, h, hp], hp⟩

theorem strip_length_le (bs : List Byte) : (strip bs).length ≤ bs.length :=
  List.length_filter_le _ _

@[simp] theorem strip_append (as bs : List Byte) : strip (as ++ bs) = strip as ++ strip bs := by
  simp [strip]

theorem strip_cons (b : Byte) (bs : List Byte) :
    strip (b :: bs) = if isWs b then strip bs else b :: strip bs := by
  cases h : isWs b <;> simp [strip, h]

end Sys2Proof.Machine
end

