-- ==== Sys2Proof/Laws/Memory.lean ====
section
/-! SUPPORT. What the buffer operations do: reading after writing, the canonical form and the
capacity are kept, and what reading a run of cells answers. -/

namespace Sys2Proof.Machine

/-- A buffer's canonical form, one cell at a time. -/
theorem wf_cons {k : Nat} {v : Byte} {m : Memory} :
    Memory.wf ((k, v) :: m) ↔ (∀ c ∈ m, k < c.1) ∧ Memory.wf m := by
  simp only [Memory.wf, List.map_cons, List.pairwise_cons, List.mem_map]
  constructor
  · rintro ⟨h, hm⟩
    exact ⟨fun c hc => h c.1 ⟨c, hc, rfl⟩, hm⟩
  · rintro ⟨h, hm⟩
    refine ⟨?_, hm⟩
    rintro _ ⟨c, hc, rfl⟩
    exact h c hc

theorem mem_writeCell {m : Memory} {a : Nat} {b : Byte} {c : Host.Cell}
    (h : c ∈ writeCell m a b) : c = (a, b) ∨ c ∈ m := by
  induction m with
  | nil => simpa [writeCell] using h
  | cons hd m ih =>
    obtain ⟨k, v⟩ := hd
    simp only [writeCell] at h
    split at h
    · simpa using h
    · split at h
      · rcases List.mem_cons.1 h with h | h
        · exact .inl h
        · exact .inr (List.mem_cons_of_mem _ h)
      · rcases List.mem_cons.1 h with h | h
        · exact .inr (h ▸ List.mem_cons_self)
        · exact (ih h).imp_right (List.mem_cons_of_mem _)

/-- A write keeps the canonical form. -/
theorem writeCell_wf {m : Memory} (a : Nat) (b : Byte) (h : Memory.wf m) :
    Memory.wf (writeCell m a b) := by
  induction m with
  | nil => simp [writeCell, Memory.wf]
  | cons hd m ih =>
    obtain ⟨k, v⟩ := hd
    obtain ⟨hk, hm⟩ := wf_cons.1 h
    simp only [writeCell]
    split
    · rename_i hlt
      refine wf_cons.2 ⟨?_, h⟩
      intro c hc
      rcases List.mem_cons.1 hc with rfl | hc
      · exact hlt
      · exact hlt.trans (hk c hc)
    · split
      · rename_i heq
        subst heq
        exact wf_cons.2 ⟨hk, hm⟩
      · refine wf_cons.2 ⟨?_, ih hm⟩
        intro c hc
        rcases mem_writeCell hc with rfl | hc
        · simp only; omega
        · exact hk c hc

/-- A write inside the capacity keeps the buffer inside it. -/
theorem writeCell_within {m : Memory} {a n : Nat} (b : Byte) (ha : a < n)
    (h : Memory.within m n) : Memory.within (writeCell m a b) n := by
  intro c hc
  rcases mem_writeCell hc with rfl | hc
  · exact ha
  · exact h c hc

/-- Writing a run of cells keeps the canonical form. -/
theorem writeCells_wf {m : Memory} (a : Nat) (bs : List Byte) (h : Memory.wf m) :
    Memory.wf (writeCells m a bs) := by
  induction bs generalizing m a with
  | nil => exact h
  | cons b bs ih => exact ih (a + 1) (writeCell_wf a b h)

/-- Writing a run of cells inside the capacity keeps the buffer inside it. -/
theorem writeCells_within {m : Memory} {a n : Nat} (bs : List Byte) (ha : a + bs.length ≤ n)
    (h : Memory.within m n) : Memory.within (writeCells m a bs) n := by
  induction bs generalizing m a with
  | nil => exact h
  | cons b bs ih =>
    simp only [List.length_cons] at ha
    exact ih (by omega) (writeCell_within b (by omega) h)

/-- The cell that was written holds the byte written. -/
@[simp] theorem readCell_writeCell_same (m : Memory) (a : Nat) (b : Byte) :
    readCell (writeCell m a b) a = some b := by
  induction m with
  | nil => simp [writeCell, readCell]
  | cons hd m ih =>
    obtain ⟨k, v⟩ := hd
    simp only [writeCell]
    split
    · simp [readCell]
    · split
      · simp [readCell]
      · rename_i h1 h2
        simp [readCell, Ne.symm h2, ih]

/-- Every other cell is left alone. -/
theorem readCell_writeCell_other (m : Memory) {a x : Nat} (b : Byte) (h : x ≠ a) :
    readCell (writeCell m a b) x = readCell m x := by
  induction m with
  | nil => simp [writeCell, readCell, h.symm]
  | cons hd m ih =>
    obtain ⟨k, v⟩ := hd
    simp only [writeCell]
    split
    · simp [readCell, h.symm]
    · split
      · rename_i h1 h2
        subst h2
        simp [readCell, h.symm]
      · simp [readCell, ih]

/-- What a cell holds after a run of cells was written: the byte of the run, or what it held. -/
theorem readCell_writeCells (m : Memory) (a x : Nat) (bs : List Byte) :
    readCell (writeCells m a bs) x =
      if a ≤ x ∧ x < a + bs.length then bs[x - a]? else readCell m x := by
  induction bs generalizing m a with
  | nil => simp [writeCells]
  | cons b bs ih =>
    simp only [writeCells, ih, List.length_cons]
    rcases Nat.lt_trichotomy x a with h | h | h
    · rw [if_neg (by omega), if_neg (by omega), readCell_writeCell_other _ _ (by omega)]
    · subst h
      rw [if_neg (by omega), if_pos (by omega)]
      simp
    · obtain ⟨d, rfl⟩ : ∃ d, x = a + 1 + d := ⟨x - (a + 1), by omega⟩
      by_cases hd : d < bs.length
      · rw [if_pos (by omega), if_pos (by omega)]
        have h1 : a + 1 + d - (a + 1) = d := by omega
        have h2 : a + 1 + d - a = d + 1 := by omega
        simp [h1, h2]
      · rw [if_neg (by omega), if_neg (by omega), readCell_writeCell_other _ _ (by omega)]

/-- A cell that lies at or above the capacity is unwritten. -/
theorem readCell_eq_none_of_within {m : Memory} {n a : Nat} (h : Memory.within m n)
    (ha : n ≤ a) : readCell m a = none := by
  induction m with
  | nil => rfl
  | cons hd m ih =>
    obtain ⟨k, v⟩ := hd
    have hk : k < n := h (k, v) List.mem_cons_self
    rw [readCell, if_neg (by omega), ih fun c hc => h c (List.mem_cons_of_mem _ hc)]

/-- Reading a run of cells answers bytes exactly when the cells hold them. -/
theorem readCells_eq_ok {m : Memory} {a n : Nat} {bs : List Byte} :
    readCells m a n = .ok bs ↔ bs.length = n ∧ cellsHold m a bs := by
  induction n generalizing a bs with
  | zero =>
    cases bs with
    | nil => simp [readCells, cellsHold]
    | cons b bs => simp [readCells]
  | succ n ih =>
    cases hb : readCell m a with
    | none =>
      simp only [readCells, hb, reduceCtorEq, false_iff, not_and]
      intro hl h
      cases bs with
      | nil => simp at hl
      | cons b bs => simpa [hb] using h 0 (by simp)
    | some b =>
      cases bs with
      | nil =>
        simp only [readCells, hb, List.length_nil]
        cases readCells m (a + 1) n <;> simp
      | cons b' bs =>
        have step : cellsHold m a (b' :: bs) ↔ b = b' ∧ cellsHold m (a + 1) bs := by
          constructor
          · intro h
            refine ⟨by simpa [hb] using h 0 (by simp), fun k hk => ?_⟩
            have := h (k + 1) (by simpa using hk)
            rw [show a + 1 + k = a + (k + 1) by omega, this]
            simp
          · rintro ⟨rfl, h⟩ k hk
            cases k with
            | zero => simpa using hb
            | succ k =>
              have := h k (by simpa using hk)
              rw [show a + (k + 1) = a + 1 + k by omega, this]
              simp
        simp only [readCells, hb, step, List.length_cons, Nat.add_right_cancel_iff]
        cases hr : readCells m (a + 1) n with
        | error e =>
          have := @ih (a + 1) bs
          simp only [hr, reduceCtorEq, false_iff] at this
          simp only [reduceCtorEq, false_iff]
          exact fun h => this ⟨h.1, h.2.2⟩
        | ok bs' =>
          have := @ih (a + 1) bs
          rw [hr] at this
          simp only [Except.ok.injEq, List.cons.injEq] at this ⊢
          rw [this]
          tauto

/-- Reading a run of cells stops at its first unwritten cell. -/
theorem readCells_eq_error {m : Memory} {a n x : Nat} :
    readCells m a n = .error x ↔
      a ≤ x ∧ x < a + n ∧ readCell m x = none ∧ cellsWritten m a (x - a) := by
  induction n generalizing a with
  | zero => simp only [readCells, reduceCtorEq, false_iff]; omega
  | succ n ih =>
    cases hb : readCell m a with
    | none =>
      simp only [readCells, hb, Except.error.injEq]
      constructor
      · rintro rfl
        exact ⟨le_rfl, by omega, hb, fun k hk => by omega⟩
      · rintro ⟨h1, -, -, h2⟩
        by_contra hne
        simpa [hb] using h2 0 (by omega)
    | some b =>
      have key : readCells m a (n + 1) = .error x ↔ readCells m (a + 1) n = .error x := by
        simp only [readCells, hb]
        cases readCells m (a + 1) n <;> simp
      rw [key, ih]
      constructor
      · rintro ⟨h1, h2, h3, h4⟩
        refine ⟨by omega, by omega, h3, fun k hk => ?_⟩
        cases k with
        | zero => simp [hb]
        | succ k =>
          rw [show a + (k + 1) = a + 1 + k by omega]
          exact h4 k (by omega)
      · rintro ⟨h1, h2, h3, h4⟩
        have hxa : x ≠ a := by rintro rfl; simp [hb] at h3
        refine ⟨by omega, by omega, h3, fun k hk => ?_⟩
        rw [show a + 1 + k = a + (k + 1) by omega]
        exact h4 (k + 1) (by omega)

/-- Written cells can be read. -/
theorem readCells_of_written {m : Memory} {a n : Nat} (h : cellsWritten m a n) :
    ∃ bs, readCells m a n = .ok bs := by
  cases hr : readCells m a n with
  | ok bs => exact ⟨bs, rfl⟩
  | error x =>
    obtain ⟨h1, h2, h3, -⟩ := readCells_eq_error.1 hr
    have := h (x - a) (by omega)
    rw [show a + (x - a) = x by omega, h3] at this
    simp at this

end Sys2Proof.Machine
end

