-- ==== Sys2Proof/Laws/State.lean ====
section
/-! SUPPORT. One lemma per field per update of State, true by rfl, so that no proof unfolds a
record update. -/

namespace Sys2Proof.Machine

@[simp] theorem setCrc_params (s : State) (r : Remainder) :
    (setCrc s r).params = s.params := rfl
@[simp] theorem setCrc_off (s : State) (r : Remainder) :
    (setCrc s r).off = s.off := rfl
@[simp] theorem setCrc_len (s : State) (r : Remainder) :
    (setCrc s r).len = s.len := rfl
@[simp] theorem setCrc_crc (s : State) (r : Remainder) :
    (setCrc s r).crc = r.setWidth 32 := rfl
@[simp] theorem setCrc_olen (s : State) (r : Remainder) :
    (setCrc s r).olen = s.olen := rfl
@[simp] theorem setCrc_status (s : State) (r : Remainder) :
    (setCrc s r).status = s.status := rfl
@[simp] theorem setCrc_ibuf (s : State) (r : Remainder) :
    (setCrc s r).ibuf = s.ibuf := rfl
@[simp] theorem setCrc_obuf (s : State) (r : Remainder) :
    (setCrc s r).obuf = s.obuf := rfl
@[simp] theorem setCrc_events (s : State) (r : Remainder) :
    (setCrc s r).events = s.events := rfl
@[simp] theorem setCrc_reply (s : State) (r : Remainder) :
    (setCrc s r).reply = s.reply := rfl

@[simp] theorem setHexlike_params (s : State) (h : Bool) :
    (setHexlike s h).params = s.params := rfl
@[simp] theorem setHexlike_off (s : State) (h : Bool) :
    (setHexlike s h).off = s.off := rfl
@[simp] theorem setHexlike_len (s : State) (h : Bool) :
    (setHexlike s h).len = s.len := rfl
@[simp] theorem setHexlike_crc (s : State) (h : Bool) :
    (setHexlike s h).crc = s.crc := rfl
@[simp] theorem setHexlike_olen (s : State) (h : Bool) :
    (setHexlike s h).olen = s.olen := rfl
@[simp] theorem setHexlike_status (s : State) (h : Bool) :
    (setHexlike s h).status = withHexlike s.status h := rfl
@[simp] theorem setHexlike_ibuf (s : State) (h : Bool) :
    (setHexlike s h).ibuf = s.ibuf := rfl
@[simp] theorem setHexlike_obuf (s : State) (h : Bool) :
    (setHexlike s h).obuf = s.obuf := rfl
@[simp] theorem setHexlike_events (s : State) (h : Bool) :
    (setHexlike s h).events = s.events := rfl
@[simp] theorem setHexlike_reply (s : State) (h : Bool) :
    (setHexlike s h).reply = s.reply := rfl

@[simp] theorem setOlen_params (s : State) (n : Nat) :
    (setOlen s n).params = s.params := rfl
@[simp] theorem setOlen_off (s : State) (n : Nat) :
    (setOlen s n).off = s.off := rfl
@[simp] theorem setOlen_len (s : State) (n : Nat) :
    (setOlen s n).len = s.len := rfl
@[simp] theorem setOlen_crc (s : State) (n : Nat) :
    (setOlen s n).crc = s.crc := rfl
@[simp] theorem setOlen_olen (s : State) (n : Nat) :
    (setOlen s n).olen = BitVec.ofNat 32 n := rfl
@[simp] theorem setOlen_status (s : State) (n : Nat) :
    (setOlen s n).status = s.status := rfl
@[simp] theorem setOlen_ibuf (s : State) (n : Nat) :
    (setOlen s n).ibuf = s.ibuf := rfl
@[simp] theorem setOlen_obuf (s : State) (n : Nat) :
    (setOlen s n).obuf = s.obuf := rfl
@[simp] theorem setOlen_events (s : State) (n : Nat) :
    (setOlen s n).events = s.events := rfl
@[simp] theorem setOlen_reply (s : State) (n : Nat) :
    (setOlen s n).reply = s.reply := rfl

@[simp] theorem report_params (s : State) (e : ErrCode) :
    (report s e).params = s.params := rfl
@[simp] theorem report_off (s : State) (e : ErrCode) :
    (report s e).off = s.off := rfl
@[simp] theorem report_len (s : State) (e : ErrCode) :
    (report s e).len = s.len := rfl
@[simp] theorem report_crc (s : State) (e : ErrCode) :
    (report s e).crc = s.crc := rfl
@[simp] theorem report_olen (s : State) (e : ErrCode) :
    (report s e).olen = s.olen := rfl
@[simp] theorem report_status (s : State) (e : ErrCode) :
    (report s e).status = withErr s.status (errValue e) := rfl
@[simp] theorem report_ibuf (s : State) (e : ErrCode) :
    (report s e).ibuf = s.ibuf := rfl
@[simp] theorem report_obuf (s : State) (e : ErrCode) :
    (report s e).obuf = s.obuf := rfl
@[simp] theorem report_events (s : State) (e : ErrCode) :
    (report s e).events = s.events := rfl
@[simp] theorem report_reply (s : State) (e : ErrCode) :
    (report s e).reply = s.reply := rfl

@[simp] theorem answer_params (s : State) (r : Reply) :
    (answer s r).params = s.params := rfl
@[simp] theorem answer_off (s : State) (r : Reply) :
    (answer s r).off = s.off := rfl
@[simp] theorem answer_len (s : State) (r : Reply) :
    (answer s r).len = s.len := rfl
@[simp] theorem answer_crc (s : State) (r : Reply) :
    (answer s r).crc = s.crc := rfl
@[simp] theorem answer_olen (s : State) (r : Reply) :
    (answer s r).olen = s.olen := rfl
@[simp] theorem answer_status (s : State) (r : Reply) :
    (answer s r).status = s.status := rfl
@[simp] theorem answer_ibuf (s : State) (r : Reply) :
    (answer s r).ibuf = s.ibuf := rfl
@[simp] theorem answer_obuf (s : State) (r : Reply) :
    (answer s r).obuf = s.obuf := rfl
@[simp] theorem answer_events (s : State) (r : Reply) :
    (answer s r).events = s.events := rfl
@[simp] theorem answer_reply (s : State) (r : Reply) :
    (answer s r).reply = r := rfl

@[simp] theorem issueCommand_params (s : State) (v : Word) :
    (issueCommand s v).params = s.params := rfl
@[simp] theorem issueCommand_off (s : State) (v : Word) :
    (issueCommand s v).off = s.off := rfl
@[simp] theorem issueCommand_len (s : State) (v : Word) :
    (issueCommand s v).len = s.len := rfl
@[simp] theorem issueCommand_crc (s : State) (v : Word) :
    (issueCommand s v).crc = s.crc := rfl
@[simp] theorem issueCommand_olen (s : State) (v : Word) :
    (issueCommand s v).olen = s.olen := rfl
@[simp] theorem issueCommand_status (s : State) (v : Word) :
    (issueCommand s v).status = s.status := rfl
@[simp] theorem issueCommand_ibuf (s : State) (v : Word) :
    (issueCommand s v).ibuf = s.ibuf := rfl
@[simp] theorem issueCommand_obuf (s : State) (v : Word) :
    (issueCommand s v).obuf = s.obuf := rfl
@[simp] theorem issueCommand_events (s : State) (v : Word) :
    (issueCommand s v).events = .host (.regWrite 0 v) :: s.events := rfl
@[simp] theorem issueCommand_reply (s : State) (v : Word) :
    (issueCommand s v).reply = s.reply := rfl

@[simp] theorem platformReset_params (s : State) :
    (platformReset s).params = s.params := rfl
@[simp] theorem platformReset_off (s : State) :
    (platformReset s).off = 0 := rfl
@[simp] theorem platformReset_len (s : State) :
    (platformReset s).len = 0 := rfl
@[simp] theorem platformReset_crc (s : State) :
    (platformReset s).crc = 0 := rfl
@[simp] theorem platformReset_olen (s : State) :
    (platformReset s).olen = 0 := rfl
@[simp] theorem platformReset_status (s : State) :
    (platformReset s).status = 0 := rfl
@[simp] theorem platformReset_ibuf (s : State) :
    (platformReset s).ibuf = [] := rfl
@[simp] theorem platformReset_obuf (s : State) :
    (platformReset s).obuf = [] := rfl
@[simp] theorem platformReset_events (s : State) :
    (platformReset s).events = s.events := rfl
@[simp] theorem platformReset_reply (s : State) :
    (platformReset s).reply = .nothing := rfl

end Sys2Proof.Machine
end

