-- ==== Sys2Proof/Laws/Range.lean ====
section
/-! SUPPORT. Everything the one operand form can do, said once; the provers cite it instead of
unfolding `overRange`. -/

namespace Sys2Proof.Machine

theorem rangeFits_iff {s : State} :
    rangeFits s = true ↔ s.off.toNat + s.len.toNat ≤ s.params.inMax := by
  simp [rangeFits]

/-- A range that does not fit is rejected with ERR_RANGE (20_memory.md R36). -/
theorem overRange_rejected {s : State} {n : Nat} {op : List Byte → State}
    (h : s.params.inMax < s.off.toNat + s.len.toNat) :
    overRange s n op = .next (report s .range) := by
  rw [overRange, if_neg]
  simp only [rangeFits_iff]
  omega

/-- A range that fits and whose first `n` cells hold `bs` is handed to the operation. -/
theorem overRange_accepted {s : State} {n : Nat} {op : List Byte → State} {bs : List Byte}
    (h : s.off.toNat + s.len.toNat ≤ s.params.inMax) (hn : bs.length = n)
    (hb : cellsHold s.ibuf s.off.toNat bs) : overRange s n op = .next (op bs) := by
  rw [overRange, if_pos (rangeFits_iff.2 h), readCells_eq_ok.2 ⟨hn, hb⟩]

/-- A range that fits and whose read set holds an unwritten cell faults (20_memory.md R43). -/
theorem overRange_unwritten {s : State} {n x : Nat} {op : List Byte → State}
    (h : s.off.toNat + s.len.toNat ≤ s.params.inMax)
    (hx : readCells s.ibuf s.off.toNat n = .error x) :
    overRange s n op = .fault (.unwrittenIbuf x) := by
  rw [overRange, if_pos (rangeFits_iff.2 h), hx]

/-- The three things an operation over the range can answer. -/
theorem overRange_cases (s : State) (n : Nat) (op : List Byte → State) :
    (s.params.inMax < s.off.toNat + s.len.toNat ∧
      overRange s n op = .next (report s .range)) ∨
    (s.off.toNat + s.len.toNat ≤ s.params.inMax ∧
      ∃ bs : List Byte, bs.length = n ∧ cellsHold s.ibuf s.off.toNat bs ∧
        overRange s n op = .next (op bs)) ∨
    (s.off.toNat + s.len.toNat ≤ s.params.inMax ∧
      ∃ x, readCells s.ibuf s.off.toNat n = .error x ∧
        overRange s n op = .fault (.unwrittenIbuf x)) := by
  by_cases h : s.off.toNat + s.len.toNat ≤ s.params.inMax
  · cases hr : readCells s.ibuf s.off.toNat n with
    | ok bs =>
      obtain ⟨hn, hb⟩ := readCells_eq_ok.1 hr
      exact .inr (.inl ⟨h, bs, hn, hb, overRange_accepted h hn hb⟩)
    | error x => exact .inr (.inr ⟨h, x, rfl, overRange_unwritten h hr⟩)
  · exact .inl ⟨by omega, overRange_rejected (by omega)⟩

/-- If an operation over the range answers a next state, it was rejected or it ran. -/
theorem overRange_next {s t : State} {n : Nat} {op : List Byte → State}
    (h : overRange s n op = .next t) :
    (s.params.inMax < s.off.toNat + s.len.toNat ∧ t = report s .range) ∨
    (s.off.toNat + s.len.toNat ≤ s.params.inMax ∧
      ∃ bs : List Byte, bs.length = n ∧ cellsHold s.ibuf s.off.toNat bs ∧ t = op bs) := by
  rcases overRange_cases s n op with ⟨hr, he⟩ | ⟨hr, bs, hn, hb, he⟩ | ⟨-, x, -, he⟩
  · rw [he] at h
    exact .inl ⟨hr, (Host.Outcome.next.inj h).symm⟩
  · rw [he] at h
    exact .inr ⟨hr, bs, hn, hb, (Host.Outcome.next.inj h).symm⟩
  · rw [he] at h
    cases h

end Sys2Proof.Machine
end

