-- ==== Sys2Proof/Laws/Status.lean ====
section
/-! SUPPORT. A write to one field of STATUS is read back and leaves the rest (00_scope.md section
6, 10_state.md R16). -/

namespace Sys2Proof.Machine

theorem errMask_low : ∀ k < 3, (0xFFFFFFF8#32).getLsbD k = false := by decide

theorem errMask_high : ∀ k < 32, 3 ≤ k → (0xFFFFFFF8#32).getLsbD k = true := by decide

theorem hexlikeMask : ∀ k < 32, (0xFFFFFEFF#32).getLsbD k = decide (k ≠ 8) := by decide

theorem hexlikeBit : ∀ h : Bool, ∀ k < 32,
    (if h then 0x00000100#32 else 0x00000000#32).getLsbD k = (decide (k = 8) && h) := by decide

theorem readMask : ∀ k < 32, (0x00000107#32).getLsbD k = (decide (k < 3) || decide (k = 8)) := by
  decide

/-- ERR's bits take the code written. -/
theorem getLsbD_withErr_low (w : Word) (e : BitVec 3) {k : Nat} (h : k < 3) :
    (withErr w e).getLsbD k = e.getLsbD k := by
  have h32 : k < 32 := by omega
  rw [withErr, BitVec.getLsbD_or, BitVec.getLsbD_and, errMask_low k h]
  simp [h32]

/-- The bits of STATUS outside ERR are left by a write to ERR. -/
theorem getLsbD_withErr_high (w : Word) (e : BitVec 3) {k : Nat} (h : 3 ≤ k) :
    (withErr w e).getLsbD k = w.getLsbD k := by
  by_cases h32 : k < 32
  · simp [withErr, errMask_high k h32 h, BitVec.getLsbD_of_ge e k h]
  · simp [BitVec.getLsbD_of_ge _ k (Nat.le_of_not_lt h32)]

/-- HEXLIKE takes the value written and every other bit of STATUS is left. -/
theorem getLsbD_withHexlike (w : Word) (h : Bool) {k : Nat} (h32 : k < 32) :
    (withHexlike w h).getLsbD k = if k = 8 then h else w.getLsbD k := by
  rw [withHexlike, BitVec.getLsbD_or, BitVec.getLsbD_and, hexlikeMask k h32, hexlikeBit h k h32]
  by_cases hk : k = 8 <;> simp [hk]

/-- STATUS as read: the two fields, every other bit 0. -/
theorem getLsbD_statusRead (w : Word) {k : Nat} (h32 : k < 32) :
    (statusRead w).getLsbD k = (w.getLsbD k && (decide (k < 3) || decide (k = 8))) := by
  rw [statusRead, BitVec.getLsbD_and, readMask k h32]

@[simp] theorem statusErr_withErr (w : Word) (e : BitVec 3) : statusErr (withErr w e) = e := by
  apply BitVec.eq_of_getLsbD_eq
  intro k hk
  simp [statusErr, hk, getLsbD_withErr_low w e hk]

@[simp] theorem statusHexlike_withErr (w : Word) (e : BitVec 3) :
    statusHexlike (withErr w e) = statusHexlike w :=
  getLsbD_withErr_high w e (by decide)

@[simp] theorem statusErr_withHexlike (w : Word) (h : Bool) :
    statusErr (withHexlike w h) = statusErr w := by
  apply BitVec.eq_of_getLsbD_eq
  intro k hk
  have h32 : k < 32 := by omega
  have h8 : k ≠ 8 := by omega
  simp [statusErr, hk, getLsbD_withHexlike w h h32, h8]

@[simp] theorem statusHexlike_withHexlike (w : Word) (h : Bool) :
    statusHexlike (withHexlike w h) = h :=
  getLsbD_withHexlike w h (k := 8) (by decide)

/-- Two writes to ERR leave the second. -/
@[simp] theorem withErr_withErr (w : Word) (e e' : BitVec 3) :
    withErr (withErr w e) e' = withErr w e' := by
  apply BitVec.eq_of_getLsbD_eq
  intro k _
  rcases Nat.lt_or_ge k 3 with h | h
  · rw [getLsbD_withErr_low _ _ h, getLsbD_withErr_low _ _ h]
  · rw [getLsbD_withErr_high _ _ h, getLsbD_withErr_high _ _ h, getLsbD_withErr_high _ _ h]

end Sys2Proof.Machine
end

