-- ==== Sys2Proof/Laws/Dispatch.lean ====
section
/-! SUPPORT. One lemma per instruction and per transaction: everything a next state can be. -/

namespace Sys2Proof.Machine

/-- If CRC16 answers a next state, it was rejected or it latched a checksum. -/
theorem execCrc16_next {s t : State} (h : execCrc16 s = .next t) :
    (s.params.inMax < s.off.toNat + s.len.toNat ∧ t = report s .range) ∨
    (s.off.toNat + s.len.toNat ≤ s.params.inMax ∧
      ∃ bs : List Byte, bs.length = s.len.toNat ∧ cellsHold s.ibuf s.off.toNat bs ∧
        t = report (setCrc s (crc16 bs)) .ok) :=
  overRange_next h

/-- If HEXDET answers a next state, it was rejected or it latched a detection. -/
theorem execHexdet_next {s t : State} (h : execHexdet s = .next t) :
    (s.params.inMax < s.off.toNat + s.len.toNat ∧ t = report s .range) ∨
    (s.off.toNat + s.len.toNat ≤ s.params.inMax ∧
      ∃ w : List Byte, w.length = min s.len.toNat s.params.hexWindow ∧
        cellsHold s.ibuf s.off.toNat w ∧
        t = report (setHexlike s (windowLooksLikeHex s.len.toNat w)) .ok) :=
  overRange_next h

/-- If HEX2BIN answers a next state, it was rejected or it stored the conversion's result. -/
theorem execHex2bin_next {s t : State} (h : execHex2bin s = .next t) :
    (s.params.inMax < s.off.toNat + s.len.toNat ∧ t = report s .range) ∨
    (s.off.toNat + s.len.toNat ≤ s.params.inMax ∧
      ∃ bs : List Byte, bs.length = s.len.toNat ∧ cellsHold s.ibuf s.off.toNat bs ∧
        t = storeConversion s (hexToBinary bs)) :=
  overRange_next h

/-- A step with nothing to deliver. -/
theorem step_idle {s : State} (h : s.events = []) : step s = .next s := by
  simp [step, advance, takeEvent, h]

/-- A step with an event to deliver. -/
theorem step_event {s : State} {e : Event} {rest : List Event} (h : s.events = e :: rest) :
    step s = deliver e { s with events := rest, reply := .nothing } := by
  simp [step, advance, takeEvent, h]

/-- What a write to CMD does, by the decoding of the word. -/
theorem perform_command (s : State) (v : Word) :
    perform (.regWrite 0 v) s = commandWrite s v := rfl

end Sys2Proof.Machine
end

