-- ==== Sys2Proof/Laws/PerInstr.lean ====
section
/-! SUPPORT. What holds of every instruction as syntax, one lemma per constructor: its command word
decodes to it and has its opcode below 24 zero bits (30_encoding.md R51, R53). -/

namespace Sys2Proof.Laws.RoundTrip

/-- The command word of `i` decodes to `i`, and it is format C with the opcode of `i`. -/
def Statement (i : Instr) : Prop :=
  decode (encode i) = .ok i ∧ zeroField (encode i) = 0 ∧ opcodeField (encode i) = opcodeOf i ∧
    i.wf = true

theorem crc16 : Statement .crc16 := ⟨rfl, rfl, rfl, rfl⟩

theorem hexdet : Statement .hexdet := ⟨rfl, rfl, rfl, rfl⟩

theorem hex2bin : Statement .hex2bin := ⟨rfl, rfl, rfl, rfl⟩

end Sys2Proof.Laws.RoundTrip
end

