-- ==== Sys2Proof/Laws/Run.lean ====
section
/-! SUPPORT. `runsTo` is the host's own `Core.run` of the machine. -/

namespace Sys2Proof.Machine

/-- The host's run, one step at a time, in the model's names. -/
theorem core_run_of_next {s u : State} (k : Nat) (h : step s = .next u) :
    Host.Core.run core (k + 1) s = Host.Core.run core k u := by
  simp only [Host.Core.run]
  rw [show core.step s = .next u from h]

theorem core_run_of_fault {s : State} {f : Fault} (k : Nat) (h : step s = .fault f) :
    Host.Core.run core (k + 1) s = .fault f := by
  simp only [Host.Core.run]
  rw [show core.step s = .fault f from h]

theorem core_run_of_refused {s : State} {r : Refusal} (k : Nat) (h : step s = .refused r) :
    Host.Core.run core (k + 1) s = .refused r := by
  simp only [Host.Core.run]
  rw [show core.step s = .refused r from h]

/-- A run of `k` steps in a next state is the host's run. -/
theorem runsTo_iff_core_run {s t : State} {k : Nat} :
    runsTo s k t ↔ Host.Core.run core k s = .next t := by
  induction k generalizing s with
  | zero =>
    constructor
    · rintro rfl; rfl
    · intro h; exact (Host.Outcome.next.inj h).symm
  | succ k ih =>
    cases h : step s with
    | next u => simp [runsTo, h, core_run_of_next k h, ih]
    | fault f => simp [runsTo, h, core_run_of_fault k h]
    | refused r => simp [runsTo, h, core_run_of_refused k h]

end Sys2Proof.Machine
end

