-- ==== Sys2Proof/Tests/Slice0.lean ====
section
/-! SUPPORT. The model's own tests. Every expected result is from 95_test_vectors.md (its vector or
program is named) or worked out by hand from the rule named. Then, for each statement of
Obligations.lean that has hypotheses, a witness that meets them. -/

namespace Sys2Proof.Tests

open Sys2Proof Sys2Proof.Machine

/-! ## Helpers -/

/-- After reset, with `bytes` written from IBUF index 0 on and OFF and LEN set. -/
def loaded (off len : Nat) (bytes : List Byte) : State :=
  { State.reset with
    off := BitVec.ofNat 32 off, len := BitVec.ofNat 32 len, ibuf := writeCells [] 0 bytes }

def nextAnd (o : Outcome) (p : State → Bool) : Bool :=
  match o with
  | .next t => p t
  | .fault _ => false
  | .refused _ => false

def faultsWith (o : Outcome) (f : Fault) : Bool :=
  match o with
  | .next _ => false
  | .fault g => g == f
  | .refused _ => false

def refusedWith (o : Outcome) (r : Refusal) : Bool :=
  match o with
  | .next _ => false
  | .fault _ => false
  | .refused q => q == r

/-- The text "123456789" of vector V2.9. -/
def checkText : List Byte := [0x31, 0x32, 0x33, 0x34, 0x35, 0x36, 0x37, 0x38, 0x39]

/-- The bytes of the worked examples of 41_hex_normalizer.md R94 and R95. -/
def workedExample : List Byte := [0x30, 0x31, 0x41, 0x62, 0x20, 0x09, 0x0D, 0x0A]

/-- "01234567", vector V3.3. -/
def eightDigits : List Byte := [0x30, 0x31, 0x32, 0x33, 0x34, 0x35, 0x36, 0x37]

/-! ## Well-formedness: an ill-formed term for each check -/

theorem test_params_zero_capacity :
    (Params.mk 0 64 .bits32).wf = false := by decide

theorem test_params_capacity_too_large :
    (Params.mk (2 ^ 32) 64 .bits32).wf = false := by decide

theorem test_params_zero_window :
    (Params.mk 256 0 .bits32).wf = false := by decide

theorem test_params_default : Params.default.wf = true := by decide

theorem test_transaction_register_number :
    (Transaction.regRead 6).wf Params.default = false ∧
    (Transaction.regWrite 6 0).wf Params.default = false ∧
    (Transaction.regRead 5).wf Params.default = true := by decide

theorem test_transaction_index :
    (Transaction.ibufWrite 256 0).wf Params.default = false ∧
    (Transaction.ibufRead 256).wf Params.default = false ∧
    (Transaction.obufRead 128).wf Params.default = false ∧
    (Transaction.obufRead 127).wf Params.default = true := by decide

theorem test_pseudo_text :
    (Pseudo.fills 0 []).wf = false ∧ (Pseudo.fills 0 [Char.ofNat 0x80]).wf = false ∧
    (Pseudo.fill 0 []).wf = false ∧ (Pseudo.fills 0 ['G', '0']).wf = true := by decide

theorem test_no_command_word :
    isCommandWord 0x00000000 = false ∧ isCommandWord 0x00000101 = false ∧
    isCommandWord 0x00000003 = true := by decide

/-! ## Decoding: words written out from 30_encoding.md R51 and R53 -/

theorem test_decode_crc16 :
    decode 0b00000000000000000000000000000001#32 = .ok .crc16 := by decide

theorem test_decode_hexdet :
    decode 0b00000000000000000000000000000010#32 = .ok .hexdet := by decide

theorem test_decode_hex2bin :
    decode 0b00000000000000000000000000000011#32 = .ok .hex2bin := by decide

/-- V5.10 to V5.13: the four illegal words. -/
theorem test_decode_illegal :
    decode 0x00000000#32 = .error (.reservedOpcode 0x00) ∧
    decode 0x00000004#32 = .error (.reservedOpcode 0x04) ∧
    decode 0x00000101#32 = .error .reservedBits ∧
    decode 0x80000001#32 = .error .reservedBits := by decide

theorem test_table_word :
    decodeTableWord 32 1 = some .crc16 ∧ decodeTableWord 32 2 = some .hexdet ∧
    decodeTableWord 32 3 = some .hex2bin ∧ decodeTableWord 32 0 = none ∧
    decodeTableWord 40 1 = none := by decide

/-! ## Functions -/

/-- V2.20 to V2.26. -/
theorem test_crc_bit_corners :
    crcBit 0x0000 false = 0x0000 ∧ crcBit 0x0000 true = 0xA001 ∧ crcBit 0x0001 true = 0x0000 ∧
    crcBit 0x0001 false = 0xA001 ∧ crcBit 0x8000 false = 0x4000 ∧
    crcBit 0xFFFF false = 0xDFFE ∧ crcBit 0xFFFF true = 0x7FFF := by decide

/-- 95_test_vectors.md section 2.2, the single bytes at the corners. -/
theorem test_crc_byte_corners :
    crcByte 0xFFFF 0x00 = 0x40BF ∧ crcByte 0xFFFF 0xFF = 0x00FF ∧
    crcByte 0xBB3D 0x3D = 0x00BB ∧ crcByte 0x00BB 0xBB = 0x0000 := by decide +kernel

/-- V2.1 to V2.13. -/
theorem test_crc16_vectors :
    crc16 [] = 0x0000 ∧ crc16 [0x00] = 0x0000 ∧ crc16 [0x01] = 0xC0C1 ∧ crc16 [0x02] = 0xC181 ∧
    crc16 [0x80] = 0xA001 ∧ crc16 [0xFF] = 0x4040 ∧ crc16 [0x41] = 0x30C0 ∧
    crc16 [0x01, 0x02] = 0x5180 ∧ crc16 checkText = 0xBB3D ∧ crc16 [0xFF, 0xFF] = 0xB001 ∧
    crc16 [0x61, 0x62, 0x63] = 0x9738 ∧ crc16 [0x31, 0x32] = 0x4594 := by decide +kernel

/-- V2.34 to V2.36. -/
theorem test_crc16_residues :
    crc16 (checkText ++ [0x3D, 0xBB]) = 0x0000 ∧ crc16 (checkText ++ [0xBB, 0x3D]) = 0xC2E3 ∧
    crc16 (checkText.drop 4) = 0x90E1 ∧ crcFrom 0x14BA (checkText.drop 4) = 0xBB3D := by
  decide +kernel

def tablePiece0 : List Remainder :=
  [ 0x0000, 0xC0C1, 0xC181, 0x0140, 0xC301, 0x03C0, 0x0280, 0xC241,
    0xC601, 0x06C0, 0x0780, 0xC741, 0x0500, 0xC5C1, 0xC481, 0x0440,
    0xCC01, 0x0CC0, 0x0D80, 0xCD41, 0x0F00, 0xCFC1, 0xCE81, 0x0E40,
    0x0A00, 0xCAC1, 0xCB81, 0x0B40, 0xC901, 0x09C0, 0x0880, 0xC841 ]

def tablePiece1 : List Remainder :=
  [ 0xD801, 0x18C0, 0x1980, 0xD941, 0x1B00, 0xDBC1, 0xDA81, 0x1A40,
    0x1E00, 0xDEC1, 0xDF81, 0x1F40, 0xDD01, 0x1DC0, 0x1C80, 0xDC41,
    0x1400, 0xD4C1, 0xD581, 0x1540, 0xD701, 0x17C0, 0x1680, 0xD641,
    0xD201, 0x12C0, 0x1380, 0xD341, 0x1100, 0xD1C1, 0xD081, 0x1040 ]

def tablePiece2 : List Remainder :=
  [ 0xF001, 0x30C0, 0x3180, 0xF141, 0x3300, 0xF3C1, 0xF281, 0x3240,
    0x3600, 0xF6C1, 0xF781, 0x3740, 0xF501, 0x35C0, 0x3480, 0xF441,
    0x3C00, 0xFCC1, 0xFD81, 0x3D40, 0xFF01, 0x3FC0, 0x3E80, 0xFE41,
    0xFA01, 0x3AC0, 0x3B80, 0xFB41, 0x3900, 0xF9C1, 0xF881, 0x3840 ]

def tablePiece3 : List Remainder :=
  [ 0x2800, 0xE8C1, 0xE981, 0x2940, 0xEB01, 0x2BC0, 0x2A80, 0xEA41,
    0xEE01, 0x2EC0, 0x2F80, 0xEF41, 0x2D00, 0xEDC1, 0xEC81, 0x2C40,
    0xE401, 0x24C0, 0x2580, 0xE541, 0x2700, 0xE7C1, 0xE681, 0x2640,
    0x2200, 0xE2C1, 0xE381, 0x2340, 0xE101, 0x21C0, 0x2080, 0xE041 ]

def tablePiece4 : List Remainder :=
  [ 0xA001, 0x60C0, 0x6180, 0xA141, 0x6300, 0xA3C1, 0xA281, 0x6240,
    0x6600, 0xA6C1, 0xA781, 0x6740, 0xA501, 0x65C0, 0x6480, 0xA441,
    0x6C00, 0xACC1, 0xAD81, 0x6D40, 0xAF01, 0x6FC0, 0x6E80, 0xAE41,
    0xAA01, 0x6AC0, 0x6B80, 0xAB41, 0x6900, 0xA9C1, 0xA881, 0x6840 ]

def tablePiece5 : List Remainder :=
  [ 0x7800, 0xB8C1, 0xB981, 0x7940, 0xBB01, 0x7BC0, 0x7A80, 0xBA41,
    0xBE01, 0x7EC0, 0x7F80, 0xBF41, 0x7D00, 0xBDC1, 0xBC81, 0x7C40,
    0xB401, 0x74C0, 0x7580, 0xB541, 0x7700, 0xB7C1, 0xB681, 0x7640,
    0x7200, 0xB2C1, 0xB381, 0x7340, 0xB101, 0x71C0, 0x7080, 0xB041 ]

def tablePiece6 : List Remainder :=
  [ 0x5000, 0x90C1, 0x9181, 0x5140, 0x9301, 0x53C0, 0x5280, 0x9241,
    0x9601, 0x56C0, 0x5780, 0x9741, 0x5500, 0x95C1, 0x9481, 0x5440,
    0x9C01, 0x5CC0, 0x5D80, 0x9D41, 0x5F00, 0x9FC1, 0x9E81, 0x5E40,
    0x5A00, 0x9AC1, 0x9B81, 0x5B40, 0x9901, 0x59C0, 0x5880, 0x9841 ]

def tablePiece7 : List Remainder :=
  [ 0x8801, 0x48C0, 0x4980, 0x8941, 0x4B00, 0x8BC1, 0x8A81, 0x4A40,
    0x4E00, 0x8EC1, 0x8F81, 0x4F40, 0x8D01, 0x4DC0, 0x4C80, 0x8C41,
    0x4400, 0x84C1, 0x8581, 0x4540, 0x8701, 0x47C0, 0x4680, 0x8641,
    0x8201, 0x42C0, 0x4380, 0x8341, 0x4100, 0x81C1, 0x8081, 0x4040 ]

/-- The table of 95_test_vectors.md section 2.3, all 256 entries. -/
def specTable : List Remainder :=
  tablePiece0 ++ tablePiece1 ++ tablePiece2 ++ tablePiece3 ++ tablePiece4 ++ tablePiece5 ++
    tablePiece6 ++ tablePiece7

theorem test_crc_table :
    (List.range 256).map (fun v => crcTable (BitVec.ofNat 8 v)) = specTable := by decide +kernel

/-- 40_checksum.md R69: 0xA001 is 0x8005 with its 16 bits reversed. -/
theorem test_polynomial : (0x8005#16).reverse = crcPoly := by decide

/-- V2.40 to V2.44. -/
theorem test_checksum_field :
    crcField 0xF0C7 = ⟨0x00, 0x00, 0xF0, 0xC7⟩ ∧
    crcMatches .bits32 ⟨0x00, 0x00, 0xF0, 0xC7⟩ 0xF0C7 = true ∧
    crcMatches .bits16 ⟨0x00, 0x00, 0xF0, 0xC7⟩ 0xF0C7 = true ∧
    crcMatches .bits32 ⟨0x00, 0x00, 0xC7, 0xF0⟩ 0xF0C7 = false ∧
    crcMatches .bits16 ⟨0x00, 0x00, 0xC7, 0xF0⟩ 0xF0C7 = false ∧
    crcMatches .bits32 ⟨0x00, 0x01, 0xF0, 0xC7⟩ 0xF0C7 = false ∧
    crcMatches .bits16 ⟨0x00, 0x01, 0xF0, 0xC7⟩ 0xF0C7 = true ∧
    crcMatches .bits16 ⟨0xF0, 0xC7, 0x00, 0x00⟩ 0xBB3D = false := by decide

/-- V3.1 to V3.5, V3.7, V3.10 to V3.12, V3.20, V3.21. -/
theorem test_detection_vectors :
    looksLikeHex 64 [] = false ∧ looksLikeHex 64 (eightDigits.take 7) = false ∧
    looksLikeHex 64 eightDigits = true ∧ looksLikeHex 64 (eightDigits ++ [0x0A]) = false ∧
    looksLikeHex 64 (eightDigits.take 7 ++ [0x47]) = false ∧
    looksLikeHex 64 (List.replicate 8 0x20) = true ∧
    looksLikeHex 64 (List.replicate 64 0x30 ++ [0x47, 0x30]) = true ∧
    looksLikeHex 64 (List.replicate 63 0x30 ++ [0x47, 0x30, 0x30]) = false ∧
    looksLikeHex 64 [0x30, 0x78, 0x31, 0x32, 0x33, 0x34, 0x35, 0x36] = false ∧
    looksLikeHex 4 [0x30, 0x31, 0x32, 0x33, 0x47, 0x47, 0x47, 0x47] = true ∧
    looksLikeHex 64 [0x30, 0x31, 0x32, 0x33, 0x47, 0x47, 0x47, 0x47] = false := by decide +kernel

/-- V3.19: the neighbours of the class ranges. -/
theorem test_detection_neighbours :
    ([0x2F, 0x3A, 0x40, 0x47, 0x60, 0x67, 0x00, 0x80, 0xFF, 0x0B, 0x0C] : List Byte).all
      (fun v => !looksLikeHex 64 (List.replicate 7 0x30 ++ [v])) = true := by decide +kernel

/-- V4.1, V4.2, V4.4, V4.5, V4.7, V4.9 to V4.11, V4.13, V4.14, V4.16, V4.19. -/
theorem test_conversion_vectors :
    hexToBinary [] = .ok [] ∧ hexToBinary [0x30, 0x30] = .ok [0x00] ∧
    hexToBinary [0x66, 0x46] = .ok [0xFF] ∧ hexToBinary [0x34, 0x20, 0x31] = .ok [0x41] ∧
    hexToBinary [0x31] = .error .oddLength ∧ hexToBinary [0x31, 0x47] = .error .nonHex ∧
    hexToBinary [0x31, 0x47, 0x33] = .error .nonHex ∧
    hexToBinary [0x30, 0x78, 0x31, 0x32] = .error .nonHex ∧
    hexToBinary [0x20, 0x09, 0x0D, 0x0A] = .ok [] ∧
    hexToBinary [0x31, 0x32, 0x0B, 0x33, 0x34] = .error .nonHex ∧
    hexToBinary [0x00, 0x00] = .error .nonHex ∧
    hexToBinary [0x30, 0x20, 0x31, 0x20, 0x41, 0x20, 0x62, 0x20, 0x0D, 0x0A] =
      .ok [0x01, 0xAB] := by decide +kernel

/-- V4.3, V4.10 and V4.15 on the serial form. -/
theorem test_serial_vectors :
    hexToBinarySerial [0x30, 0x31, 0x39, 0x61, 0x66, 0x41, 0x46, 0x30] =
      .ok [0x01, 0x9A, 0xFA, 0xF0] ∧
    hexToBinarySerial [0x31, 0x47, 0x33] = .error .nonHex ∧
    hexToBinarySerial [0x31, 0x20, 0x32, 0x20, 0x33] = .error .oddLength := by decide +kernel

/-! ## One step -/

/-- Program P1. -/
theorem test_step_crc16 :
    nextAnd (step ((loaded 0 9 checkText).withFetchWord 32 1))
      (fun t => t.crc == 0x0000BB3D && t.status == 0 && t.len == 9) = true := by decide +kernel

/-- V5.14: 250 + 7 > 256; CRC keeps the old value. -/
theorem test_step_crc16_range :
    nextAnd (step ({ loaded 250 7 checkText with crc := 0x0000BB3D }.withFetchWord 32 1))
      (fun t => t.crc == 0x0000BB3D && t.status == 4) = true := by decide +kernel

/-- V5.35: no fault beyond the window. -/
theorem test_step_hexdet_window :
    nextAnd (step ((loaded 0 100 (List.replicate 64 0x30)).withFetchWord 32 2))
      (fun t => t.status == 0x00000100) = true := by decide +kernel

/-- V5.34: LEN 7 is not hex-like, and ERR is cleared. -/
theorem test_step_hexdet_odd :
    nextAnd (step ({ loaded 0 7 eightDigits with status := 0x00000101 }.withFetchWord 32 2))
      (fun t => t.status == 0x00000000) = true := by decide +kernel

/-- V5.32: success keeps HEXLIKE. -/
theorem test_step_hex2bin :
    nextAnd (step ({ loaded 0 8 eightDigits with status := 0x00000100 }.withFetchWord 32 3))
      (fun t => t.olen == 4 && t.status == 0x00000100 &&
        t.obuf == [(0, 0x01), (1, 0x23), (2, 0x45), (3, 0x67)]) = true := by decide +kernel

/-- V5.33: a failed conversion leaves OBUF and clears OLEN. -/
theorem test_step_hex2bin_odd :
    nextAnd (step ({ loaded 0 7 eightDigits with
        status := 0x00000100, olen := 1, obuf := [(0, 0x01)] }.withFetchWord 32 3))
      (fun t => t.olen == 0 && t.status == 0x00000101 && t.obuf == [(0, 0x01)]) = true := by
  decide +kernel

/-- V5.20: IBUF[9] was never written. -/
theorem test_step_unwritten :
    faultsWith (step ((loaded 0 10 checkText).withFetchWord 32 1)) (.unwrittenIbuf 9) = true := by
  decide +kernel

/-- V5.18: the sum does not wrap. -/
theorem test_step_no_wrap :
    nextAnd (step ((loaded 0xFFFFFFFF 0xFFFFFFFF []).withFetchWord 32 2))
      (fun t => t.status == 4) = true := by decide +kernel

/-- V5.19: the write to CRC is ignored. -/
theorem test_step_read_only :
    nextAnd (step { State.reset with events := [.host (.regWrite 3 0x00001234)] })
      (fun t => t == State.reset) = true := by decide +kernel

/-- 20_memory.md R42. -/
theorem test_step_refused :
    refusedWith (step { State.reset with events := [.host (.regRead 6)] })
      (.noSuchRegister 6) = true := by decide +kernel

/-- R130: the reset event. -/
theorem test_step_reset :
    nextAnd (step { loaded 3 9 checkText with crc := 0x0000BB3D, events := [.platformReset] })
      (fun t => t == State.reset) = true := by decide +kernel


/-! ## Witnesses: values that meet the hypotheses of the statements, clause by clause -/

theorem witness_DecodeEncodeAgree :
    Instr.crc16.wf = true ∧ Instr.hexdet.wf = true ∧ Instr.hex2bin.wf = true ∧
    decode 0x00000001#32 = .ok .crc16 ∧ decode 0x00000003#32 = .ok .hex2bin := by decide

/-- The words next to the three, on both sides, and the largest. -/
theorem witness_IllegalCommandIsRejected :
    ([0x00000000, 0x00000004, 0x00000101, 0xFFFFFFFF] : List Word).all (fun v =>
      v != 0x00000001#32 && v != 0x00000002#32 && v != 0x00000003#32) = true := by
  decide

/-- Each clause: reserved bits, a reserved opcode, and a legal word with the range one past the end
of IBUF and exactly at it. -/
theorem witness_CommandWriteDecodesChecksRuns :
    (0x00000100#32).extractLsb' 8 24 ≠ 0 ∧
    ((0x00000004#32).extractLsb' 8 24 = 0 ∧ (0x00000004#32).extractLsb' 0 8 ≠ 0x01 ∧
      (0x00000004#32).extractLsb' 0 8 ≠ 0x02 ∧ (0x00000004#32).extractLsb' 0 8 ≠ 0x03) ∧
    ((0x00000003#32).extractLsb' 8 24 = 0 ∧ (0x00000003#32).extractLsb' 0 8 = 0x03) ∧
    (loaded 250 7 []).params.inMax < (loaded 250 7 []).off.toNat + (loaded 250 7 []).len.toNat ∧
    (loaded 256 0 []).off.toNat + (loaded 256 0 []).len.toNat ≤ (loaded 256 0 []).params.inMax := by
  decide +kernel

theorem witness_NotationStandsForTransactions :
    0 < [0x31#8, 0x32#8].length ∧ 1 < [0x31#8, 0x32#8].length ∧
    (Pseudo.fills 0 ['1', '2']).wf = true := by decide

theorem witness_StepRunsTheDecodedCommand :
    (State.resetWith Params.default [.host (.regWrite 0 0x00000001), .platformReset]).events =
      .host (.regWrite 0 0x00000001) :: [.platformReset] ∧
    decode 0x00000001#32 = .ok .crc16 := by decide

theorem witness_StepDeliversTheNextEvent :
    State.reset.events = [] ∧
    (State.resetWith Params.default [.host (.regRead 3)]).events = .host (.regRead 3) :: [] ∧
    (State.resetWith Params.default [.platformReset]).events = .platformReset :: [] := by decide

/-- A run of two steps from reset: LEN is written, then CRC is read. -/
theorem witness_RunsConsumeEventsInOrder :
    runsTo (State.resetWith Params.default [.host (.regWrite 2 9), .host (.regRead 3)]) 2
      { State.reset with len := 9, reply := .word 0 } :=
  ⟨_, rfl, _, rfl, rfl⟩

theorem witness_RegReadReturnsTheRegister : 8 < 32 ∧ 3 ≤ 31 ∧ 31 ≠ 8 ∧ 5 < 6 := by decide

theorem witness_RegWriteStoresRunsOrIsIgnored :
    0x00000002#32 = encode .hexdet ∧ (∀ i : Instr, 0x00000004#32 ≠ encode i) ∧ 5 < 6 := by
  refine ⟨by decide, fun i => ?_, by decide⟩
  cases i <;> decide

/-- The last cell of IBUF and the first index beyond it. -/
theorem witness_IbufWriteStoresOneCell :
    255 < State.reset.params.inMax ∧ State.reset.params.inMax ≤ 256 ∧ 254 ≠ 255 := by decide

theorem witness_IbufReadReturnsTheCell :
    (0 < (loaded 0 0 checkText).params.inMax ∧
      readCell (loaded 0 0 checkText).ibuf 0 = some 0x31) ∧
    readCell (loaded 0 0 checkText).ibuf 9 = none ∧
    (loaded 0 0 checkText).params.inMax ≤ 256 ∧
    nextAnd (exec .crc16 (loaded 0 9 checkText)) (fun _ => true) = true := by decide +kernel

/-- The last cell of OBUF, written and unwritten, and the first index beyond it. -/
theorem witness_ObufReadReturnsTheCell :
    (127 < State.reset.params.inMax / 2 ∧
      readCell { State.reset with obuf := [(127, 0x8E)] }.obuf 127 = some 0x8E) ∧
    readCell State.reset.obuf 127 = none ∧ State.reset.params.inMax / 2 ≤ 128 := by decide

theorem witness_OutsideTheMapIsRefused :
    5 < 6 ∧ State.reset.params.inMax ≤ 256 ∧ State.reset.params.outMax ≤ 128 := by decide

/-- The last cell of the read set is the unwritten one, for the whole range and for the window. -/
theorem witness_UnwrittenReadFaults :
    (255 < State.reset.params.inMax ∧ readCell State.reset.ibuf 255 = none) ∧
    (127 < State.reset.params.outMax ∧ readCell State.reset.obuf 127 = none) ∧
    ((loaded 0 10 checkText).off.toNat + (loaded 0 10 checkText).len.toNat ≤
        (loaded 0 10 checkText).params.inMax ∧ 9 < (loaded 0 10 checkText).len.toNat ∧
      9 < min (loaded 0 10 checkText).len.toNat (loaded 0 10 checkText).params.hexWindow ∧
      readCell (loaded 0 10 checkText).ibuf ((loaded 0 10 checkText).off.toNat + 9) = none) := by
  decide +kernel

/-- A sum that would wrap to a small number, and the empty range at the end of IBUF. -/
theorem witness_RangeCheckDoesNotWrap :
    (loaded 0xFFFFFFFF 2 []).params.inMax <
      (loaded 0xFFFFFFFF 2 []).off.toNat + (loaded 0xFFFFFFFF 2 []).len.toNat ∧
    (loaded 256 0 []).len = 0 ∧
    (loaded 256 0 []).off.toNat ≤ (loaded 256 0 []).params.inMax := by decide +kernel

/-- HEXDET on 100 bytes of which the window is written, against a buffer that differs at index 64;
and a buffer with a hole inside the window, whose command faults. -/
theorem witness_OperationsReadOnlyTheirReadSet :
    ((∀ k < readLength .hexdet (loaded 0 100 (List.replicate 64 0x30)),
        readCell (writeCell (loaded 0 100 (List.replicate 64 0x30)).ibuf 64 0x47)
            ((loaded 0 100 (List.replicate 64 0x30)).off.toNat + k) =
          readCell (loaded 0 100 (List.replicate 64 0x30)).ibuf
            ((loaded 0 100 (List.replicate 64 0x30)).off.toNat + k)) ∧
      nextAnd (exec .hexdet (loaded 0 100 (List.replicate 64 0x30))) (fun _ => true) = true) ∧
    faultsWith (exec .hexdet (loaded 0 10 checkText)) (.unwrittenIbuf 9) = true := by
  decide +kernel

theorem witness_TransactionsAreIdempotent :
    Memory.wf (loaded 0 8 eightDigits).ibuf ∧ Memory.wf (loaded 0 8 eightDigits).obuf ∧
    nextAnd (perform (.regWrite 0 3) (loaded 0 8 eightDigits)) (fun _ => true) = true ∧
    nextAnd (perform (.ibufWrite 3 0x41) (loaded 0 8 eightDigits)) (fun _ => true) = true := by
  decide +kernel

theorem witness_CanonicalBufferIsUnique :
    Memory.wf [(2, 0x10), (5, 0x20)] ∧
    Memory.wf (writeCell (writeCell [] 5 0x20) 2 0x10) ∧
    ∀ a, readCell [(2, 0x10), (5, 0x20)] a =
      readCell (writeCell (writeCell [] 5 0x20) 2 0x10) a :=
  ⟨by decide, by decide, fun _ => rfl⟩

theorem witness_StatusFieldWritesLeaveTheRest : 3 ≤ 3 ∧ 3 ≠ 8 ∧ 9 ≠ 8 := by decide

/-- Each row with a hypothesis: the ignored registers, a buffer write, the reads, the two
rejections, the three accepted operations and the two conversion errors. -/
theorem witness_WriteSetsAreExact :
    nextAnd (perform (.ibufWrite 255 0x41) (loaded 0 8 eightDigits)) (fun _ => true) = true ∧
    nextAnd (perform (.regRead 5) (loaded 0 8 eightDigits)) (fun _ => true) = true ∧
    nextAnd (perform (.ibufRead 7) (loaded 0 8 eightDigits)) (fun _ => true) = true ∧
    nextAnd (perform (.obufRead 127) { loaded 0 8 eightDigits with obuf := [(127, 0x8E)] })
      (fun _ => true) = true ∧
    (loaded 250 7 []).params.inMax < (loaded 250 7 []).off.toNat + (loaded 250 7 []).len.toNat ∧
    (loaded 0 8 eightDigits).off.toNat + (loaded 0 8 eightDigits).len.toNat ≤
      (loaded 0 8 eightDigits).params.inMax ∧
    nextAnd (perform (.regWrite 0 (encode .crc16)) (loaded 0 8 eightDigits)) (fun _ => true) = true ∧
    nextAnd (perform (.regWrite 0 (encode .hexdet)) (loaded 0 8 eightDigits)) (fun _ => true) =
      true ∧
    nextAnd (perform (.regWrite 0 (encode .hex2bin)) (loaded 0 8 eightDigits))
      (fun t => statusErr t.status == 0) = true ∧
    nextAnd (perform (.regWrite 0 (encode .hex2bin)) (loaded 0 7 eightDigits))
      (fun t => statusErr t.status == 1) = true ∧
    nextAnd (perform (.regWrite 0 (encode .hex2bin)) (loaded 0 1 [0x47]))
      (fun t => statusErr t.status == 2) = true := by decide +kernel

theorem witness_WriteSetsAreExact_illegal : ∀ i : Instr, 0x00000000#32 ≠ encode i := by
  intro i
  cases i <;> decide

/-- The same eight bytes at two places of IBUF, with every other register different. -/
theorem witness_OperationsArePure :
    let s₁ := loaded 0 8 eightDigits
    let s₂ := { loaded 2 8 ([0x00, 0x00] ++ eightDigits) with
                  crc := 0x1234, olen := 0, status := 0x102, obuf := [(0, 0x55)] }
    s₁.params = s₂.params ∧ s₁.off.toNat + s₁.len.toNat ≤ s₁.params.inMax ∧
    s₂.off.toNat + s₂.len.toNat ≤ s₂.params.inMax ∧ s₁.len.toNat = eightDigits.length ∧
    s₂.len.toNat = eightDigits.length ∧ cellsHold s₁.ibuf s₁.off.toNat eightDigits ∧
    cellsHold s₂.ibuf s₂.off.toNat eightDigits := by decide +kernel

/-- The smallest and the largest capacity. -/
theorem witness_ResetMeetsTheInvariant :
    (Params.mk 1 1 .bits16).wf = true ∧ (Params.mk (2 ^ 32 - 1) 64 .bits32).wf = true := by decide

/-- A state that meets the invariant with a current output, and whose next step runs HEX2BIN. -/
def busyState : State :=
  { loaded 0 8 eightDigits with
      crc := 0x0000BB3D, olen := 2, status := 0x00000104, obuf := [(0, 0x01), (1, 0xAB)],
      events := [.host (.regWrite 0 0x00000003)] }

theorem witness_StepKeepsTheInvariant :
    Inv busyState ∧ nextAnd (step busyState) (fun t => t.olen == 4) = true := by
  refine ⟨⟨?_, ?_, ?_, ?_, ?_, ?_, ?_, ?_, ?_, ?_⟩, ?_⟩ <;> decide +kernel

/-- A safe transaction and an unsafe one of each kind that has both. -/
theorem witness_SafeTransactionsAlwaysComplete :
    (Transaction.ibufRead 7).safe (loaded 0 8 eightDigits) ∧
    ¬ (Transaction.ibufRead 8).safe (loaded 0 8 eightDigits) ∧
    (Transaction.ibufWrite 255 0x41).safe State.reset ∧
    ¬ (Transaction.ibufWrite 256 0x41).safe State.reset ∧
    (Transaction.regRead 5).safe State.reset ∧ ¬ (Transaction.regRead 6).safe State.reset := by
  simp only [Transaction.safe]
  decide +kernel

theorem witness_CrcBitShiftsAndFeedsBack : 0 < 15 ∧ 14 < 15 := by decide

theorem witness_ChecksumIsLinear :
    ([0x01#8, 0x02#8] : List Byte).length = ([0x03#8, 0xFF#8] : List Byte).length := by decide

/-- Each clause: a checked range, a rejected one, an unwritten cell, the empty range at the end of
IBUF, zero bytes, a rejected and an accepted run, and the worked example. -/
theorem witness_Crc16LatchesTheChecksum :
    let s := loaded 0 9 checkText
    (s.off.toNat + s.len.toNat ≤ s.params.inMax ∧ s.len.toNat = checkText.length ∧
      cellsHold s.ibuf s.off.toNat checkText) ∧
    (loaded 257 0 []).params.inMax < (loaded 257 0 []).off.toNat + (loaded 257 0 []).len.toNat ∧
    ((loaded 0 10 checkText).off.toNat + (loaded 0 10 checkText).len.toNat ≤
        (loaded 0 10 checkText).params.inMax ∧ 9 < (loaded 0 10 checkText).len.toNat ∧
      readCell (loaded 0 10 checkText).ibuf ((loaded 0 10 checkText).off.toNat + 9) = none) ∧
    ((loaded 256 0 []).len = 0 ∧
      (loaded 256 0 []).off.toNat ≤ (loaded 256 0 []).params.inMax) ∧
    (∀ b ∈ List.replicate 4 0x00#8, b = 0x00#8) ∧
    nextAnd (exec .crc16 (loaded 257 0 [])) (fun t => t.status == 4) = true ∧
    nextAnd (exec .crc16 s) (fun t => t.crc == 0x0000BB3D) = true ∧
    (s.off = 0 ∧ s.len = 9 ∧ 9 ≤ s.params.inMax ∧ cellsHold s.ibuf 0 checkText) := by
  decide +kernel

theorem witness_ChecksumFieldIsBigEndian :
    let s := loaded 0 9 checkText
    s.off.toNat + s.len.toNat ≤ s.params.inMax ∧ s.len.toNat = checkText.length ∧
    cellsHold s.ibuf s.off.toNat checkText ∧
    nextAnd (exec .crc16 s) (fun _ => true) = true := by decide +kernel

theorem witness_ComparisonFollowsCheckWidth :
    (ChecksumField.mk 0x00 0x01 0xF0 0xC7).f1 ≠ 0 ∧
    (ChecksumField.mk 0x80 0x00 0xF0 0xC7).f0 ≠ 0 := by decide

/-- The two sides of the least length, and example frame EF1's. -/
theorem witness_FrameLayoutIsContiguous : 2 < 3 ∧ 3 ≤ 3 ∧ 3 ≤ 48 := by decide

theorem witness_HexDigitValues :
    (0x30 ≤ (0x30#8).toNat ∧ (0x39#8).toNat ≤ 0x39) ∧
    (0x41 ≤ (0x41#8).toNat ∧ (0x46#8).toNat ≤ 0x46) ∧
    (0x61 ≤ (0x61#8).toNat ∧ (0x66#8).toNat ≤ 0x66) ∧
    isHexDigit 0x2F = false ∧ isHexDigit 0x3A = false := by decide

/-- Two sequences that differ only beyond a window of 8. -/
theorem witness_DetectionTestsLengthAndWindow :
    (eightDigits ++ [0x47, 0x47]).length = (eightDigits ++ [0x30, 0x30]).length ∧
    ∀ k < 8, (eightDigits ++ [0x47, 0x47])[k]? = (eightDigits ++ [0x30, 0x30])[k]? := by decide

/-- The four WS bytes, and a byte that is none and stands twice: "1 1" strips to "11". -/
theorem witness_StripRemovesWhitespaceEverywhere :
    ([0x20, 0x09, 0x0D, 0x0A] : List Byte).all isWs = true ∧ isWs 0x31 = false ∧
    strip [0x31, 0x20, 0x31] = [0x31, 0x31] := by decide

theorem witness_ConversionDecodesNibblePairs :
    hexToBinary eightDigits = .ok [0x01, 0x23, 0x45, 0x67] ∧
    3 < ([0x01, 0x23, 0x45, 0x67] : List Byte).length := by decide +kernel

theorem witness_ConversionOutputFits :
    hexToBinary eightDigits = .ok [0x01, 0x23, 0x45, 0x67] ∧
    eightDigits.length ≤ (Params.mk 8 64 .bits32).inMax := by decide +kernel

/-- "aF" against "Af": both directions of the case change. -/
theorem witness_ConversionIgnoresCase :
    List.Forall₂ (fun a b : Byte => a = b ∨
      (0x41#8 ≤ a ∧ a ≤ 0x46#8 ∧ b = a + 0x20#8) ∨
      (0x61#8 ≤ a ∧ a ≤ 0x66#8 ∧ b = a - 0x20#8)) [0x61, 0x46, 0x30] [0x41, 0x66, 0x30] :=
  .cons (by decide) (.cons (by decide) (.cons (by decide) .nil))

theorem witness_ConversionIgnoresWhitespace : isWs 0x20 = true ∧ isWs 0x0A = true := by decide

/-- The digits "01aB" and the bytes they write. -/
theorem witness_ConversionRoundTrip :
    ([0x30, 0x31, 0x61, 0x42] : List Byte).length = 2 * ([0x01, 0xAB] : List Byte).length ∧
    ∀ k < ([0x01, 0xAB] : List Byte).length, ∃ b h l : Byte,
      ([0x01, 0xAB] : List Byte)[k]? = some b ∧
      ([0x30, 0x31, 0x61, 0x42] : List Byte)[2 * k]? = some h ∧
      ([0x30, 0x31, 0x61, 0x42] : List Byte)[2 * k + 1]? = some l ∧
      hexVal h = some (b.extractLsb' 4 4) ∧ hexVal l = some (b.extractLsb' 0 4) := by
  refine ⟨rfl, fun k hk => ?_⟩
  match k, hk with
  | 0, _ => exact ⟨0x01, 0x30, 0x31, rfl, rfl, rfl, by decide, by decide⟩
  | 1, _ => exact ⟨0xAB, 0x61, 0x42, rfl, rfl, rfl, by decide, by decide⟩

theorem witness_WhitespaceOnlyConvertsToNothing :
    (∀ b ∈ List.replicate 8 0x20#8, isWs b = true) ∧ 8 ≤ (List.replicate 8 0x20#8).length ∧
    (List.replicate 8 0x20#8).length % 2 = 0 := by decide

/-- A range as long as the window. -/
theorem witness_DetectionWithinWindowBoundsConversion :
    eightDigits.length ≤ 8 ∧ looksLikeHex 8 eightDigits = true ∧ 1 ≤ 8 := by decide +kernel

/-- Each clause: a whole range, a range of which only the window is written, both length tests, a
byte outside the classes at the last place of the window, the rejection, the fault and the worked
example. -/
theorem witness_HexdetLatchesTheDetection :
    let s := loaded 0 100 (List.replicate 64 0x30)
    let g := loaded 0 66 (List.replicate 63 0x30 ++ [0x47])
    let w := loaded 0 8 workedExample
    (w.off.toNat + w.len.toNat ≤ w.params.inMax ∧ w.len.toNat = workedExample.length ∧
      cellsHold w.ibuf w.off.toNat (workedExample.take w.params.hexWindow)) ∧
    (s.off.toNat + s.len.toNat ≤ s.params.inMax ∧
      cellsWritten s.ibuf s.off.toNat (min s.len.toNat s.params.hexWindow)) ∧
    ((loaded 0 7 workedExample).len.toNat < 8 ∧ (loaded 0 9 workedExample).len.toNat % 2 = 1) ∧
    (63 < min g.len.toNat g.params.hexWindow ∧
      readCell g.ibuf (g.off.toNat + 63) = some 0x47 ∧ inClass 0x47 = false) ∧
    (8 ≤ s.len.toNat ∧ s.len.toNat % 2 = 0 ∧
      ∀ k < min s.len.toNat s.params.hexWindow,
        readCell s.ibuf (s.off.toNat + k) = some 0x30) ∧
    (loaded 257 0 []).params.inMax < (loaded 257 0 []).off.toNat + (loaded 257 0 []).len.toNat ∧
    (63 < min (loaded 0 64 (List.replicate 63 0x30)).len.toNat 64 ∧
      readCell (loaded 0 64 (List.replicate 63 0x30)).ibuf 63 = none) ∧
    (w.off = 0 ∧ w.len = 8 ∧ 8 ≤ w.params.inMax ∧ 8 ≤ w.params.hexWindow ∧
      cellsHold w.ibuf 0 workedExample) := by decide +kernel

/-- Each clause: a success, both errors, the rejection, the fault, the empty range, WS only and a
single digit. -/
theorem witness_Hex2binConvertsTheRange :
    let s := loaded 0 8 eightDigits
    let o := loaded 0 7 (eightDigits.take 7)
    let g := loaded 0 1 [0x47]
    (s.off.toNat + s.len.toNat ≤ s.params.inMax ∧ s.len.toNat = eightDigits.length ∧
      cellsHold s.ibuf s.off.toNat eightDigits ∧
      hexToBinary eightDigits = .ok [0x01, 0x23, 0x45, 0x67]) ∧
    (o.off.toNat + o.len.toNat ≤ o.params.inMax ∧ o.len.toNat = (eightDigits.take 7).length ∧
      cellsHold o.ibuf o.off.toNat (eightDigits.take 7) ∧
      hexToBinary (eightDigits.take 7) = .error .oddLength) ∧
    (g.off.toNat + g.len.toNat ≤ g.params.inMax ∧ cellsHold g.ibuf g.off.toNat [0x47] ∧
      hexToBinary [0x47] = .error .nonHex) ∧
    (loaded 256 1 []).params.inMax < (loaded 256 1 []).off.toNat + (loaded 256 1 []).len.toNat ∧
    (8 < (loaded 0 9 eightDigits).len.toNat ∧
      readCell (loaded 0 9 eightDigits).ibuf 8 = none) ∧
    ((loaded 256 0 []).len = 0 ∧
      (loaded 256 0 []).off.toNat ≤ (loaded 256 0 []).params.inMax) ∧
    (∀ b ∈ ([0x20, 0x09] : List Byte), isWs b = true) ∧ isHexDigit 0x66 = true := by
  decide +kernel

theorem witness_ErrCodesAreZeroToFour :
    nextAnd (perform (.regWrite 0 0) State.reset) (fun t => statusErr t.status == 3) = true := by
  decide +kernel

theorem witness_WhatCannotFail :
    let s := loaded 0 9 checkText
    (s.off.toNat + s.len.toNat ≤ s.params.inMax ∧
      nextAnd (perform (.regWrite 0 (encode .crc16)) s) (fun _ => true) = true ∧
      nextAnd (perform (.regWrite 0 (encode .hexdet)) s) (fun _ => true) = true) ∧
    nextAnd (perform (.regWrite 5 0x7) s) (fun _ => true) = true ∧
    ∀ v, Transaction.regWrite 5 0x7 ≠ .regWrite 0 v := by
  refine ⟨by decide +kernel, by decide +kernel, ?_⟩
  intro v h
  injection h with h
  exact absurd h (by decide)

/-- Each clause: an illegal word with a bad range, a legal word with a bad range, a range with a
bad byte and an odd number of digits, an odd number of digits alone, and an even number. -/
theorem witness_ErrorPriority :
    let o := loaded 0 3 [0x31, 0x47, 0x33]
    let d := loaded 0 3 [0x31, 0x20, 0x32]
    (loaded 250 7 []).params.inMax < (loaded 250 7 []).off.toNat + (loaded 250 7 []).len.toNat ∧
    (o.off.toNat + o.len.toNat ≤ o.params.inMax ∧ o.len.toNat = 3 ∧
      cellsHold o.ibuf o.off.toNat [0x31, 0x47, 0x33] ∧
      ∃ b ∈ ([0x31, 0x47, 0x33] : List Byte), isWs b = false ∧ isHexDigit b = false) ∧
    (d.off.toNat + d.len.toNat ≤ d.params.inMax ∧ d.len.toNat = 3 ∧
      cellsHold d.ibuf d.off.toNat [0x31, 0x20, 0x32] ∧
      (∀ b ∈ ([0x31, 0x20, 0x32] : List Byte), isWs b = true ∨ isHexDigit b = true) ∧
      (([0x31, 0x20, 0x32] : List Byte).filter isHexDigit).length % 2 = 0) ∧
    ((∀ b ∈ ([0x31, 0x20] : List Byte), isWs b = true ∨ isHexDigit b = true) ∧
      (([0x31, 0x20] : List Byte).filter isHexDigit).length % 2 = 1) := by decide +kernel

/-- A command that ends in an error, and transactions that complete before it: an operation and the
read of an output byte. -/
theorem witness_ErrorsLeaveTheBlockReady :
    let s := { loaded 0 1 [0x47] with olen := 1, obuf := [(0, 0x01)] }
    nextAnd (perform (.regWrite 0 3) s) (fun t => statusErr t.status == 2) = true ∧
    nextAnd (perform (.regWrite 0 1) s) (fun _ => true) = true ∧
    nextAnd (perform (.obufRead 0) s) (fun _ => true) = true := by decide +kernel

end Sys2Proof.Tests
end

section
/-! PROOF. 00_scope.md R8: the three operations as functions of the bytes of the range. -/

namespace Sys2Proof.Machine

/-- The leading bytes of a run of held bytes are held. -/
theorem cellsHold_take {m : Memory} {a : Nat} {bs : List Byte} (h : cellsHold m a bs) (n : Nat) :
    cellsHold m a (bs.take n) := by
  intro k hk
  obtain ⟨hkn, hkbs⟩ : k < n ∧ k < bs.length := by simpa using hk
  rw [h k hkbs, List.getElem?_take_of_lt hkn]

section
/-! What each operation answers on a range that fits and whose bytes are written. -/

variable {s : State} {bs : List Byte}
  (hfit : s.off.toNat + s.len.toNat ≤ s.params.inMax)
  (hlen : s.len.toNat = bs.length)
  (hcells : cellsHold s.ibuf s.off.toNat bs)

include hfit hlen hcells

theorem exec_crc16_of_cellsHold :
    exec .crc16 s = .next (report (setCrc s (crc16 bs)) .ok) :=
  overRange_accepted hfit hlen.symm hcells

/-- HEXDET reads the window only, and its detection is the one of the whole range's bytes. -/
theorem exec_hexdet_of_cellsHold :
    exec .hexdet s =
      .next (report (setHexlike s (looksLikeHex s.params.hexWindow bs)) .ok) := by
  have hwindow : (bs.take s.params.hexWindow).length = windowLength s := by
    rw [List.length_take, windowLength, hlen, Nat.min_comm]
  rw [looksLikeHex, ← hlen]
  exact overRange_accepted hfit hwindow (cellsHold_take hcells _)

theorem exec_hex2bin_of_cellsHold :
    exec .hex2bin s = .next (storeConversion s (hexToBinary bs)) :=
  overRange_accepted hfit hlen.symm hcells

end

@[simp] theorem storeConversion_ok_status (s : State) (x : List Byte) :
    (storeConversion s (.ok x)).status = withErr s.status (errValue .ok) := rfl

@[simp] theorem storeConversion_error_status (s : State) (e : ConversionError) :
    (storeConversion s (.error e)).status = withErr s.status (errValue (conversionCode e)) := rfl

@[simp] theorem storeConversion_ok_olen (s : State) (x : List Byte) :
    (storeConversion s (.ok x)).olen = BitVec.ofNat 32 x.length := rfl

@[simp] theorem storeConversion_error_olen (s : State) (e : ConversionError) :
    (storeConversion s (.error e)).olen = 0 := rfl

/-- A successful conversion puts its output at the start of OBUF, whatever OBUF held. -/
theorem readCell_storeConversion_ok (s : State) {x : List Byte} {k : Nat} (hk : k < x.length) :
    readCell (storeConversion s (.ok x)).obuf k = x[k]? := by
  have hobuf : (storeConversion s (.ok x)).obuf = writeCells s.obuf 0 x := rfl
  rw [hobuf, readCell_writeCells, if_pos (by omega), Nat.sub_zero]

/-- OLEN counts no byte beyond the output; it would count fewer only if the length wrapped. -/
theorem storeConversion_ok_olen_toNat_le (s : State) (x : List Byte) :
    (storeConversion s (.ok x)).olen.toNat ≤ x.length := by
  rw [storeConversion_ok_olen, BitVec.toNat_ofNat]
  exact Nat.mod_le _ _

/-- The code reported depends on the result of the conversion only. -/
theorem statusErr_storeConversion_congr (s₁ s₂ : State)
    (r : Except ConversionError (List Byte)) :
    statusErr (storeConversion s₁ r).status = statusErr (storeConversion s₂ r).status := by
  cases r <;> simp

/-- OLEN after HEX2BIN depends on the result of the conversion only. -/
theorem storeConversion_olen_congr (s₁ s₂ : State) (r : Except ConversionError (List Byte)) :
    (storeConversion s₁ r).olen = (storeConversion s₂ r).olen := by
  cases r <;> rfl

/-- The current output after HEX2BIN depends on the result of the conversion only: after an error
there is none, after a success it is what was written. -/
theorem readCell_storeConversion_congr (s₁ s₂ : State)
    (r : Except ConversionError (List Byte)) {k : Nat}
    (hk : k < (storeConversion s₁ r).olen.toNat) :
    readCell (storeConversion s₁ r).obuf k = readCell (storeConversion s₂ r).obuf k := by
  cases r with
  | error e => simp at hk
  | ok x =>
    have hx : k < x.length := hk.trans_le (storeConversion_ok_olen_toNat_le s₁ x)
    rw [readCell_storeConversion_ok s₁ hx, readCell_storeConversion_ok s₂ hx]

/-- Settles O25: each operation's answer in either state is written out as a function of `bs` and
the parameters, and what the two answers share is compared field by field. -/
theorem operationsArePure : Obligations.OperationsArePure := by
  intro s₁ s₂ bs hparams hfit₁ hfit₂ hlen₁ hlen₂ hcells₁ hcells₂ i
  cases i with
  | crc16 =>
    refine ⟨_, _, exec_crc16_of_cellsHold hfit₁ hlen₁ hcells₁,
      exec_crc16_of_cellsHold hfit₂ hlen₂ hcells₂, ?_⟩
    simp
  | hexdet =>
    refine ⟨_, _, exec_hexdet_of_cellsHold hfit₁ hlen₁ hcells₁,
      exec_hexdet_of_cellsHold hfit₂ hlen₂ hcells₂, ?_⟩
    simp [hparams]
  | hex2bin =>
    refine ⟨_, _, exec_hex2bin_of_cellsHold hfit₁ hlen₁ hcells₁,
      exec_hex2bin_of_cellsHold hfit₂ hlen₂ hcells₂,
      statusErr_storeConversion_congr s₁ s₂ _, nofun, nofun, fun _ => ?_⟩
    exact ⟨storeConversion_olen_congr s₁ s₂ _,
      fun _ hk => readCell_storeConversion_congr s₁ s₂ _ hk⟩

end Sys2Proof.Machine
end

section
/-! PROOF. 10_state.md R22: the registers read 0 and the buffers are unwritten after reset. -/

namespace Sys2Proof.Machine

theorem exists_reg_of_number_le {n : Nat} (hn : n ≤ 5) : ∃ r, Reg.ofNumber n = some r := by
  interval_cases n <;> exact ⟨_, rfl⟩

/-- A read of a register the map has answers its content. -/
theorem perform_regRead {n : Nat} {r : Reg} (s : State) (hr : Reg.ofNumber n = some r) :
    perform (.regRead n) s = .next (answer s (.word (readReg s r))) := by
  simp [perform, regRead, hr]

theorem statusRead_zero : statusRead 0 = 0 := by decide

theorem statusHexlike_zero : statusHexlike 0 = false := by decide

/-- CMD, which holds nothing, included (10_state.md R11). -/
theorem readReg_resetWith (p : Params) (es : List Event) (r : Reg) :
    readReg (State.resetWith p es) r = 0 := by
  cases r with
  | status => exact statusRead_zero
  | _ => rfl

/-- Settles O22: the fields of the reset record are literals, and each register of the map reads
them as 0. -/
theorem resetClearsRegistersAndBuffers : Obligations.ResetClearsRegistersAndBuffers := by
  refine ⟨fun p es => ⟨rfl, rfl, rfl, rfl, rfl, statusHexlike_zero, rfl, ?_,
    fun _ => ⟨rfl, rfl⟩⟩, rfl⟩
  intro n hn
  obtain ⟨r, hr⟩ := exists_reg_of_number_le hn
  rw [perform_regRead _ hr, readReg_resetWith]
  rfl

end Sys2Proof.Machine
end

section
/-! PROOF. What a next state can be after each host transaction, one inversion lemma each: the
reads, a buffer write, and the two ways a command is rejected. -/

namespace Sys2Proof.Machine

theorem regRead_next {s t : State} {n : Nat} (h : perform (.regRead n) s = .next t) :
    ∃ r, Reg.ofNumber n = some r ∧ t = answer s (.word (readReg s r)) := by
  simp only [perform, regRead] at h
  split at h
  next r hr => exact ⟨r, hr, (Host.Outcome.next.inj h).symm⟩
  next => cases h

theorem ibufRead_next {s t : State} {a : Nat} (h : perform (.ibufRead a) s = .next t) :
    a < s.params.inMax ∧ ∃ b, readCell s.ibuf a = some b ∧ t = answer s (.byte b) := by
  simp only [perform, ibufRead] at h
  split at h
  next ha =>
    split at h
    next b hb => exact ⟨ha, b, hb, (Host.Outcome.next.inj h).symm⟩
    next => cases h
  next => cases h

theorem obufRead_next {s t : State} {a : Nat} (h : perform (.obufRead a) s = .next t) :
    a < s.params.outMax ∧ ∃ b, readCell s.obuf a = some b ∧ t = answer s (.byte b) := by
  simp only [perform, obufRead] at h
  split at h
  next ha =>
    split at h
    next b hb => exact ⟨ha, b, hb, (Host.Outcome.next.inj h).symm⟩
    next => cases h
  next => cases h

theorem ibufWrite_next {s t : State} {a : Nat} {b : Byte}
    (h : perform (.ibufWrite a b) s = .next t) :
    a < s.params.inMax ∧ t = { s with ibuf := writeCell s.ibuf a b } := by
  simp only [perform, ibufWrite] at h
  split at h
  next ha => exact ⟨ha, (Host.Outcome.next.inj h).symm⟩
  next => cases h

/-- An answer changes the model's field `reply` only (log entry 4). -/
theorem answer_frame {s t : State} {r : Reply} (h : t = answer s r) :
    t = { s with reply := t.reply } := by
  subst h
  rfl

/-- The two fields of format C are the whole word (30_encoding.md R51). -/
theorem zeroField_append_opcodeField (v : Word) : zeroField v ++ opcodeField v = v := by
  rw [zeroField, opcodeField, BitVec.extractLsb'_append_extractLsb'_eq_extractLsb' (by decide)]
  exact BitVec.extractLsb'_eq_self

theorem decode_encode (i : Instr) : decode (encode i) = .ok i := by
  cases i with
  | crc16 => exact Laws.RoundTrip.crc16.1
  | hexdet => exact Laws.RoundTrip.hexdet.1
  | hex2bin => exact Laws.RoundTrip.hex2bin.1

/-- What decodes has the zero field 0 and the opcode of the instruction. -/
theorem fields_of_decode_eq_ok {v : Word} {i : Instr} (h : decode v = .ok i) :
    zeroField v = 0 ∧ opcodeField v = opcodeOf i := by
  simp only [decode] at h
  split_ifs at h with hz h1 h2 h3 <;> cases h
  · exact ⟨not_not.1 hz, h1⟩
  · exact ⟨not_not.1 hz, h2⟩
  · exact ⟨not_not.1 hz, h3⟩

/-- A word that decodes is the command word of its instruction (30_encoding.md R53). -/
theorem eq_encode_of_decode_eq_ok {v : Word} {i : Instr} (h : decode v = .ok i) :
    v = encode i := by
  obtain ⟨hz, ho⟩ := fields_of_decode_eq_ok h
  rw [← zeroField_append_opcodeField v, hz, ho, encode]

/-- A word that is no command word is rejected with ERR_ILLEGAL_CMD (30_encoding.md R54). -/
theorem perform_illegal_command (s : State) {v : Word} (hv : ∀ i, v ≠ encode i) :
    perform (.regWrite 0 v) s = .next (report s .illegalCmd) := by
  rw [perform_command, commandWrite]
  split
  next => rfl
  next i hi => exact absurd (eq_encode_of_decode_eq_ok hi) (hv i)

/-- The write of a command word runs its instruction (30_encoding.md R59). -/
theorem perform_encode (s : State) (i : Instr) :
    perform (.regWrite 0 (encode i)) s = exec i s := by
  rw [perform_command, commandWrite, decode_encode]

/-- Every operation rejects a range that does not fit (20_memory.md R36). -/
theorem exec_rejected {s : State} (i : Instr)
    (h : s.params.inMax < s.off.toNat + s.len.toNat) : exec i s = .next (report s .range) := by
  cases i <;> exact overRange_rejected h

end Sys2Proof.Machine
end

section
/-! PROOF. 10_state.md R21: the three accepted operations write their columns of the table, and the
table is assembled from its rows. -/

namespace Sys2Proof.Machine

/-- Each output byte takes two digits of the input (41_hex_normalizer.md R91). -/
theorem two_mul_length_le_of_hexToBinary_ok {bs x : List Byte} (h : hexToBinary bs = .ok x) :
    2 * x.length ≤ bs.length := by
  rcases hexToBinary_cases bs with ⟨he, -⟩ | ⟨ds, -, hds, ⟨he, -⟩ | ⟨hok, -⟩⟩
  · cases he.symm.trans h
  · cases he.symm.trans h
  · obtain rfl : pairBytes ds = x := Except.ok.inj (hok.symm.trans h)
    have hstrip := strip_length_le bs
    rw [pairBytes_length]
    omega

/-- OLEN counts every byte of an output short enough for a 32-bit register. -/
theorem storeConversion_ok_olen_toNat (s : State) {x : List Byte} (hx : x.length < 2 ^ 32) :
    (storeConversion s (.ok x)).olen.toNat = x.length := by
  rw [storeConversion_ok_olen, BitVec.toNat_ofNat, Nat.mod_eq_of_lt hx]

/-- A cell of OBUF beyond the output of a successful conversion is left alone. -/
theorem readCell_storeConversion_ok_beyond (s : State) {x : List Byte} {k : Nat}
    (hk : x.length ≤ k) :
    readCell (storeConversion s (.ok x)).obuf k = readCell s.obuf k := by
  have hobuf : (storeConversion s (.ok x)).obuf = writeCells s.obuf 0 x := rfl
  rw [hobuf, readCell_writeCells, if_neg (by omega)]

/-- A successful conversion writes OLEN, the cells of OBUF below the new OLEN, and ERR. -/
theorem storeConversion_ok_writes {s t : State} {x : List Byte} (hx : x.length < 2 ^ 32)
    (ht : t = storeConversion s (.ok x)) :
    t = { s with olen := t.olen, obuf := t.obuf, status := withErr s.status 0 } ∧
      (∀ k < t.olen.toNat, (readCell t.obuf k).isSome = true) ∧
      ∀ k, t.olen.toNat ≤ k → readCell t.obuf k = readCell s.obuf k := by
  subst ht
  rw [storeConversion_ok_olen_toNat s hx]
  refine ⟨rfl, fun k hk => ?_, fun k hk => readCell_storeConversion_ok_beyond s hk⟩
  simp [readCell_storeConversion_ok s hk, hk]

section
/-! The write set of an operation on a range that fits. -/

variable {s t : State} (hfit : s.off.toNat + s.len.toNat ≤ s.params.inMax)

include hfit

theorem execCrc16_writes (h : execCrc16 s = .next t) :
    t = { s with crc := t.crc, status := withErr s.status 0 } := by
  rcases execCrc16_next h with ⟨hout, -⟩ | ⟨-, bs, -, -, rfl⟩
  · omega
  · rfl

theorem execHexdet_writes (h : execHexdet s = .next t) :
    t = { s with status := withErr (withHexlike s.status (statusHexlike t.status)) 0 } := by
  rcases execHexdet_next h with ⟨hout, -⟩ | ⟨-, w, -, -, rfl⟩
  · omega
  · simp only [report_status, setHexlike_status, statusHexlike_withErr,
      statusHexlike_withHexlike]
    rfl

theorem execHex2bin_writes (h : execHex2bin s = .next t) :
    (t = { s with olen := t.olen, obuf := t.obuf, status := withErr s.status 0 } ∧
      (∀ k < t.olen.toNat, (readCell t.obuf k).isSome = true) ∧
      ∀ k, t.olen.toNat ≤ k → readCell t.obuf k = readCell s.obuf k) ∨
    t = { s with olen := 0, status := withErr s.status 1 } ∨
    t = { s with olen := 0, status := withErr s.status 2 } := by
  rcases execHex2bin_next h with ⟨hout, -⟩ | ⟨-, bs, hbs, -, ht⟩
  · omega
  · cases hconv : hexToBinary bs with
    | ok x =>
      have hhalf := two_mul_length_le_of_hexToBinary_ok hconv
      have hlen := s.len.isLt
      rw [hconv] at ht
      exact .inl (storeConversion_ok_writes (by omega) ht)
    | error e =>
      rw [hconv] at ht
      cases e with
      | oddLength => exact .inr (.inl ht)
      | nonHex => exact .inr (.inr ht)

end

/-- Settles O24, a row of the table of R21 at a time. -/
theorem writeSetsAreExact : Obligations.WriteSetsAreExact := by
  refine ⟨fun s v => rfl, fun s v => rfl, ?ignored, ?ibufWrite,
    fun s t n h => ?regRead, fun s t a h => ?ibufRead, fun s t a h => ?obufRead,
    fun s v hv => perform_illegal_command s hv, fun s i hout => ?range,
    fun s t hfit h => ?crc16, fun s t hfit h => ?hexdet, fun s t hfit h => ?hex2bin,
    fun s => rfl⟩
  case ignored =>
    rintro s v n (rfl | rfl | rfl) <;> rfl
  case ibufWrite =>
    intro s t a b h
    obtain ⟨-, rfl⟩ := ibufWrite_next h
    exact ⟨rfl, readCell_writeCell_same _ a b, fun x hx => readCell_writeCell_other _ b hx⟩
  case regRead =>
    obtain ⟨r, -, ht⟩ := regRead_next h
    exact answer_frame ht
  case ibufRead =>
    obtain ⟨-, b, -, ht⟩ := ibufRead_next h
    exact answer_frame ht
  case obufRead =>
    obtain ⟨-, b, -, ht⟩ := obufRead_next h
    exact answer_frame ht
  case range => exact (perform_encode s i).trans (exec_rejected i hout)
  case crc16 => exact execCrc16_writes hfit ((perform_encode s .crc16).symm.trans h)
  case hexdet => exact execHexdet_writes hfit ((perform_encode s .hexdet).symm.trans h)
  case hex2bin => exact execHex2bin_writes hfit ((perform_encode s .hex2bin).symm.trans h)

end Sys2Proof.Machine
end

section
/-! PROOF. 20_memory.md section 1: what each host transaction answers, and the refusal of one that is
outside the map (R42). -/

namespace Sys2Proof.Machine

/-- The map has no register above 5 (20_memory.md R42). -/
theorem ofNumber_eq_none {n : Nat} (hn : 5 < n) : Reg.ofNumber n = none := by
  obtain ⟨k, rfl⟩ := Nat.exists_eq_add_of_le' (Nat.succ_le_of_lt hn)
  rfl

theorem perform_regRead_refused (s : State) {n : Nat} (hn : 5 < n) :
    perform (.regRead n) s = .refused (.noSuchRegister n) := by
  simp only [perform, regRead, ofNumber_eq_none hn]

theorem perform_regWrite_refused (s : State) (v : Word) {n : Nat} (hn : 5 < n) :
    perform (.regWrite n v) s = .refused (.noSuchRegister n) := by
  simp only [perform, regWrite, ofNumber_eq_none hn]

theorem perform_ibufWrite {s : State} {a : Nat} (b : Byte) (ha : a < s.params.inMax) :
    perform (.ibufWrite a b) s = .next { s with ibuf := writeCell s.ibuf a b } :=
  if_pos ha

theorem perform_ibufWrite_refused {s : State} {a : Nat} (b : Byte) (ha : s.params.inMax ≤ a) :
    perform (.ibufWrite a b) s = .refused (.noSuchIbufCell a) :=
  if_neg (Nat.not_lt.2 ha)

theorem perform_ibufRead_written {s : State} {a : Nat} {b : Byte} (ha : a < s.params.inMax)
    (hb : readCell s.ibuf a = some b) : perform (.ibufRead a) s = .next (answer s (.byte b)) := by
  simp only [perform, ibufRead, if_pos ha, hb]

theorem perform_ibufRead_unwritten {s : State} {a : Nat} (ha : a < s.params.inMax)
    (hb : readCell s.ibuf a = none) : perform (.ibufRead a) s = .fault (.unwrittenIbuf a) := by
  simp only [perform, ibufRead, if_pos ha, hb]

theorem perform_ibufRead_refused {s : State} {a : Nat} (ha : s.params.inMax ≤ a) :
    perform (.ibufRead a) s = .refused (.noSuchIbufCell a) :=
  if_neg (Nat.not_lt.2 ha)

theorem perform_obufRead_refused {s : State} {a : Nat} (ha : s.params.outMax ≤ a) :
    perform (.obufRead a) s = .refused (.noSuchObufCell a) :=
  if_neg (Nat.not_lt.2 ha)

/-- Settles O16: each transaction that names a number or an index has its refusal lemma. -/
theorem outsideTheMapIsRefused : Obligations.OutsideTheMapIsRefused := fun s =>
  ⟨fun _ hn => ⟨perform_regRead_refused s hn, fun v => perform_regWrite_refused s v hn⟩,
    fun _ ha => ⟨perform_ibufRead_refused ha, fun b => perform_ibufWrite_refused b ha⟩,
    fun _ ha => perform_obufRead_refused ha⟩

/-- Settles O13: the cell written is read back and every other cell reads as before. -/
theorem ibufWriteStoresOneCell : Obligations.IbufWriteStoresOneCell := fun _ a b =>
  ⟨fun ha => ⟨_, perform_ibufWrite b ha, readCell_writeCell_same _ a b,
    fun _ hx => readCell_writeCell_other _ b hx⟩, fun ha => perform_ibufWrite_refused b ha⟩

end Sys2Proof.Machine
end

section
/-! PROOF. 20_memory.md R31, R32: reading and writing the registers. -/

namespace Sys2Proof.Machine

/-- ERR is read as it is stored. -/
@[simp] theorem statusErr_statusRead (w : Word) : statusErr (statusRead w) = statusErr w := by
  apply BitVec.eq_of_getLsbD_eq
  intro k hk
  have h32 : k < 32 := by omega
  simp [statusErr, hk, getLsbD_statusRead w h32]

/-- HEXLIKE is read as it is stored. -/
@[simp] theorem statusHexlike_statusRead (w : Word) :
    statusHexlike (statusRead w) = statusHexlike w := by
  rw [statusHexlike, statusHexlike, getLsbD_statusRead w (by decide)]
  exact Bool.and_true _

/-- The bits of STATUS outside its two fields read 0 (10_state.md R16). -/
theorem getLsbD_statusRead_reserved (w : Word) {k : Nat} (h32 : k < 32) (h3 : 3 ≤ k)
    (h8 : k ≠ 8) : (statusRead w).getLsbD k = false := by
  simp [getLsbD_statusRead w h32, h8, Nat.not_lt.2 h3]

/-- Settles O11: a read of each register of the map answers its content, and STATUS is compared
field by field. -/
theorem regReadReturnsTheRegister : Obligations.RegReadReturnsTheRegister := by
  intro s
  refine ⟨perform_regRead (r := .cmd) s rfl, perform_regRead (r := .off) s rfl,
    perform_regRead (r := .len) s rfl, perform_regRead (r := .crc) s rfl,
    perform_regRead (r := .olen) s rfl, ?status, fun n hn => perform_regRead_refused s hn⟩
  exact ⟨statusRead s.status, perform_regRead (r := .status) s rfl,
    statusErr_statusRead s.status, statusHexlike_statusRead s.status,
    fun _ h32 h3 h8 => getLsbD_statusRead_reserved s.status h32 h3 h8⟩

/-- Settles O12: a write to CMD runs a command word or is rejected, and the writes to the other
registers compute. -/
theorem regWriteStoresRunsOrIsIgnored : Obligations.RegWriteStoresRunsOrIsIgnored := by
  intro s v
  refine ⟨rfl, rfl, rfl, rfl, rfl, ?command, fun hv => perform_illegal_command s hv,
    fun n hn => perform_regWrite_refused s v hn⟩
  rintro i rfl
  exact perform_encode s i

end Sys2Proof.Machine
end

section
/-! PROOF. 20_memory.md R34: reading IBUF, which no operation writes. -/

namespace Sys2Proof.Machine

@[simp] theorem storeConversion_ibuf (s : State) (r : Except ConversionError (List Byte)) :
    (storeConversion s r).ibuf = s.ibuf := by
  cases r <;> rfl

/-- An operation over the range leaves IBUF alone when what it runs on the bytes read does. -/
theorem overRange_ibuf {s t : State} {n : Nat} {op : List Byte → State}
    (hop : ∀ bs, (op bs).ibuf = s.ibuf) (h : overRange s n op = .next t) : t.ibuf = s.ibuf := by
  rcases overRange_next h with ⟨-, rfl⟩ | ⟨-, bs, -, -, rfl⟩
  · exact report_ibuf s .range
  · exact hop bs

/-- No operation writes IBUF (10_state.md R21). -/
theorem exec_ibuf {i : Instr} {s t : State} (h : exec i s = .next t) : t.ibuf = s.ibuf := by
  cases i with
  | crc16 => exact overRange_ibuf (fun bs => by simp) h
  | hexdet => exact overRange_ibuf (fun w => by simp) h
  | hex2bin => exact overRange_ibuf (fun bs => storeConversion_ibuf s _) h

/-- Settles O14: the three answers of the read, by the cell and the capacity, and the frame of the
operations on IBUF. -/
theorem ibufReadReturnsTheCell : Obligations.IbufReadReturnsTheCell := by
  refine ⟨fun s a ha => ⟨fun b hb => perform_ibufRead_written ha hb,
    fun hb => perform_ibufRead_unwritten ha hb⟩, fun s a ha => perform_ibufRead_refused ha, ?frame⟩
  intro i s t h a
  rw [exec_ibuf h]

end Sys2Proof.Machine
end

section
/-! PROOF. 30_encoding.md R53, R54, R59: the opcode map, and what a write to CMD does by the word
written. -/

namespace Sys2Proof.Machine

theorem decode_eq_ok_iff {v : Word} {i : Instr} : decode v = .ok i ↔ v = encode i := by
  constructor
  · exact eq_encode_of_decode_eq_ok
  · rintro rfl
    exact decode_encode i

/-- The command word of an instruction is known by its two fields (30_encoding.md R51). -/
theorem eq_encode_iff_fields {v : Word} {i : Instr} :
    v = encode i ↔ zeroField v = 0 ∧ opcodeField v = opcodeOf i := by
  constructor
  · intro h
    exact fields_of_decode_eq_ok (decode_eq_ok_iff.2 h)
  · rintro ⟨hz, ho⟩
    rw [← zeroField_append_opcodeField v, hz, ho, encode]

theorem opcodeField_encode (i : Instr) : opcodeField (encode i) = opcodeOf i :=
  (eq_encode_iff_fields.1 rfl).2

/-- Every row of the map is matched on the whole word, against the command word of its
instruction. -/
theorem mask_pattern_of_mem_opcodeTable :
    ∀ r ∈ opcodeTable, r.mask = BitVec.allOnes 32 ∧ r.pattern = encode r.instr := by
  decide

theorem exists_mem_opcodeTable (i : Instr) : ∃ r ∈ opcodeTable, r.instr = i := by
  cases i <;> decide

/-- A word matches a row of an instruction exactly when it is the command word. -/
theorem matches_row_iff {v : Word} {i : Instr} :
    (∃ r ∈ opcodeTable, r.instr = i ∧ v &&& r.mask = r.pattern) ↔ v = encode i := by
  constructor
  · rintro ⟨r, hr, rfl, hv⟩
    obtain ⟨hm, hp⟩ := mask_pattern_of_mem_opcodeTable r hr
    rwa [hm, hp, BitVec.and_allOnes] at hv
  · rintro rfl
    obtain ⟨r, hr, rfl⟩ := exists_mem_opcodeTable i
    obtain ⟨hm, hp⟩ := mask_pattern_of_mem_opcodeTable r hr
    exact ⟨r, hr, rfl, by rw [hm, hp, BitVec.and_allOnes]⟩

/-- Settles O2: decoding to an instruction and matching its row both say that the word is the
command word. -/
theorem decodeMatchesTheOpcodeMap : Obligations.DecodeMatchesTheOpcodeMap := by
  refine ⟨rfl, fun i => ?opcode, fun v i => ?row⟩
  case opcode =>
    cases i with
    | crc16 => exact opcodeField_encode .crc16
    | hexdet => exact opcodeField_encode .hexdet
    | hex2bin => exact opcodeField_encode .hex2bin
  case row => rw [decode_eq_ok_iff, matches_row_iff]

/-- Settles O5: a word other than the three is the command word of no instruction. -/
theorem illegalCommandIsRejected : Obligations.IllegalCommandIsRejected := by
  intro s v h1 h2 h3
  refine perform_illegal_command s fun i hi => ?_
  cases i with
  | crc16 => exact h1 hi
  | hexdet => exact h2 hi
  | hex2bin => exact h3 hi

/-- Settles O6: the fields decide whether the word is a command word, and a command word runs its
operation, which checks the range first. -/
theorem commandWriteDecodesChecksRuns : Obligations.CommandWriteDecodesChecksRuns := by
  intro s v
  refine ⟨fun hz => perform_illegal_command s fun i hi => ?reservedBits,
    fun hz h1 h2 h3 => perform_illegal_command s fun i hi => ?reservedOpcode,
    fun i hz ho => ?legal⟩
  case reservedBits => exact hz (eq_encode_iff_fields.1 hi).1
  case reservedOpcode =>
    have ho : opcodeField v = opcodeOf i := (eq_encode_iff_fields.1 hi).2
    cases i with
    | crc16 => exact h1 ho
    | hexdet => exact h2 ho
    | hex2bin => exact h3 ho
  case legal =>
    have hop : opcodeField v = opcodeOf i := by cases i <;> exact ho
    obtain rfl : v = encode i := eq_encode_iff_fields.2 ⟨hz, hop⟩
    rw [perform_encode]
    exact ⟨fun hout => exec_rejected i hout, fun _ => rfl⟩

end Sys2Proof.Machine
end

section
/-! PROOF. 40_checksum.md R65 to R67, R70: the checksum of a bit, of a byte and of a sequence. -/

namespace Sys2Proof.Machine

/-- With the exclusive or of the feedback undone, a bit's step is the right shift (R65). -/
theorem crcBit_undo_feedback (c : Remainder) (d : Bool) :
    (if (c.getLsbD 0 ^^ d) = true then crcBit c d ^^^ crcPoly else crcBit c d) = c >>> 1 := by
  by_cases hfeedback : (c.getLsbD 0 ^^ d) = true
  · rw [if_pos hfeedback, crcBit, if_pos hfeedback, BitVec.xor_assoc, BitVec.xor_self,
      BitVec.xor_zero]
  · rw [if_neg hfeedback, crcBit, if_neg hfeedback]

/-- Settles O29: what is left is the right shift, which brings in a 0 and moves bit k + 1 to
bit k. -/
theorem crcBitShiftsAndFeedsBack : Obligations.CrcBitShiftsAndFeedsBack := by
  intro c d s
  have hs : s = c >>> 1 := crcBit_undo_feedback c d
  refine ⟨?top, fun k _ => ?moved⟩
  case top => rw [hs, BitVec.getLsbD_ushiftRight, BitVec.getLsbD_of_ge c (1 + 15) le_rfl]
  case moved => rw [hs, BitVec.getLsbD_ushiftRight, Nat.add_comm]

/-- The order of feeding: bit 0 first, bit 7 last (R66). -/
theorem byteBits_eq (b : Byte) :
    byteBits b = [b.getLsbD 0, b.getLsbD 1, b.getLsbD 2, b.getLsbD 3, b.getLsbD 4, b.getLsbD 5,
      b.getLsbD 6, b.getLsbD 7] := rfl

/-- Settles O30: the fold over the eight bits, written out. -/
theorem crcByteTakesBitsLowFirst : Obligations.CrcByteTakesBitsLowFirst := by
  intro c b
  rw [crcByte, byteBits_eq]
  rfl

/-- The empty sequence leaves the initial value (R70). -/
@[simp] theorem crc16_nil : crc16 [] = 0 := rfl

/-- The last byte is fed to the checksum of the bytes before it (R67). -/
theorem crc16_concat (bs : List Byte) (b : Byte) : crc16 (bs ++ [b]) = crcByte (crc16 bs) b := by
  rw [crc16, crc16, crcFrom, crcFrom, List.foldl_concat]

/-- Settles O31: the loop over no byte, and over one byte more. -/
theorem crc16TakesBytesInOrder : Obligations.Crc16TakesBytesInOrder :=
  ⟨crc16_nil, crc16_concat⟩

theorem crcByte_zero_zero : crcByte 0 0 = 0 := by decide

/-- The checksum of zero bytes is 0, however many they are (R72, corner cases). -/
theorem crc16_eq_zero_of_forall_eq_zero {bs : List Byte} (h : ∀ b ∈ bs, b = 0x00#8) :
    crc16 bs = 0 := by
  induction bs using List.reverseRecOn with
  | nil => exact crc16_nil
  | append_singleton bs b ih =>
    have hbs : crc16 bs = 0 := ih fun b' hb' => h b' (List.mem_append_left _ hb')
    have hb : b = 0 := h b (by simp)
    rw [crc16_concat, hbs, hb, crcByte_zero_zero]

end Sys2Proof.Machine
end

section
/-! PROOF. 40_checksum.md R72: the operation CRC16. -/

namespace Sys2Proof.Machine

/-- The later of two reports stands. -/
@[simp] theorem report_report (s : State) (e e' : ErrCode) :
    report (report s e) e' = report s e' := by
  simp only [report, withErr_withErr]

/-- Latching the same checksum again and reporting again changes nothing. -/
theorem report_setCrc_report_setCrc (s : State) (r : Remainder) (e : ErrCode) :
    report (setCrc (report (setCrc s r) e) r) e = report (setCrc s r) e :=
  report_report (setCrc s r) e e

/-- CRC reads as the checksum latched, zero-extended (R72). -/
theorem readReg_crc_setCrc (s : State) (r : Remainder) (e : ErrCode) :
    readReg (report (setCrc s r) e) .crc = r.setWidth 32 := by
  rw [readReg, report_crc, setCrc_crc, BitVec.extractLsb'_setWidth_of_le (by decide),
    BitVec.extractLsb'_eq_self]

/-- An unwritten cell stops the reading of a run, there or before. -/
theorem exists_readCells_eq_error {m : Memory} {a n k : Nat} (hk : k < n)
    (hcell : readCell m (a + k) = none) : ∃ x, readCells m a n = .error x := by
  cases hr : readCells m a n with
  | error x => exact ⟨x, rfl⟩
  | ok bs =>
    obtain ⟨rfl, hcells⟩ := readCells_eq_ok.1 hr
    have hheld : readCell m (a + k) = some bs[k] := by
      rw [hcells k hk, List.getElem?_eq_getElem hk]
    cases hcell.symm.trans hheld

/-- CRC16 over the empty range latches 0, wherever in IBUF the range stands. -/
theorem exec_crc16_of_len_zero {s : State} (hlen : s.len = 0)
    (hoff : s.off.toNat ≤ s.params.inMax) :
    exec .crc16 s = .next (report (setCrc s 0) .ok) := by
  have hzero : s.len.toNat = 0 := by rw [hlen]; rfl
  exact exec_crc16_of_cellsHold (bs := []) (by omega) hzero nofun

/-- A CRC16 repeated on the state it left leaves that state (R72; 20_memory.md R41). -/
theorem exec_crc16_idempotent {s t : State} (h : exec .crc16 s = .next t) :
    exec .crc16 t = .next t := by
  rcases execCrc16_next h with ⟨hout, rfl⟩ | ⟨hfit, bs, hlen, hcells, rfl⟩
  · have hagain := exec_rejected (s := report s .range) .crc16 hout
    rwa [report_report] at hagain
  · have hagain := exec_crc16_of_cellsHold (s := report (setCrc s (crc16 bs)) .ok) hfit hlen.symm
      hcells
    rwa [report_setCrc_report_setCrc] at hagain

/-- CRC after an accepted CRC16, as `RegRead(3)` answers it. -/
theorem perform_regRead_crc_of_setCrc (s : State) (r : Remainder) (e : ErrCode) :
    perform (.regRead 3) (report (setCrc s r) e) =
      .next (answer (report (setCrc s r) e) (.word (r.setWidth 32))) := by
  rw [perform_regRead (r := .crc) _ rfl, readReg_crc_setCrc]

/-- The checksum of the text "123456789", the worked example of R72. -/
theorem crc16_check_text :
    crc16 [0x31, 0x32, 0x33, 0x34, 0x35, 0x36, 0x37, 0x38, 0x39] = 0xBB3D := by
  simp [crc16, crcFrom, crcByte, byteBits_eq, crcBit, crcInit, crcPoly]

/-- Settles O38: a clause for each of the three answers of the range, then the corner cases. -/
theorem crc16LatchesTheChecksum : Obligations.Crc16LatchesTheChecksum := by
  refine ⟨decode_encode .crc16, fun s bs hfit hlen hcells => ?accepted,
    fun s hout => exec_rejected .crc16 hout, fun s k hfit hk hcell => ?unwritten,
    fun s hlen hoff => exec_crc16_of_len_zero hlen hoff,
    fun bs hbs => crc16_eq_zero_of_forall_eq_zero hbs, fun s t h => exec_crc16_idempotent h,
    fun s hoff hlen hmax hcells => ?worked⟩
  case accepted => exact exec_crc16_of_cellsHold hfit hlen hcells
  case unwritten =>
    obtain ⟨x, hx⟩ := exists_readCells_eq_error hk hcell
    exact ⟨x, overRange_unwritten hfit hx⟩
  case worked =>
    have hoff0 : s.off.toNat = 0 := by rw [hoff]; rfl
    have hlen9 : s.len.toNat = 9 := by rw [hlen]; rfl
    rw [← hoff0] at hcells
    have hrun : exec .crc16 s = .next (report (setCrc s 0xBB3D) .ok) := by
      rw [← crc16_check_text]
      refine exec_crc16_of_cellsHold (by omega) ?_ hcells
      exact hlen9
    exact ⟨_, hrun, statusErr_withErr s.status 0, perform_regRead_crc_of_setCrc s 0xBB3D .ok⟩

end Sys2Proof.Machine
end

section
/-! PROOF. 40_checksum.md R73, R74: the checksum field of a frame and the comparison with it. -/

namespace Sys2Proof.Machine

/-- A byte moved left within a word keeps its value, times the place it is moved to. -/
theorem toNat_setWidth_shiftLeft (b : Byte) {n : Nat} (hn : n ≤ 24) :
    (b.setWidth 32 <<< n).toNat = b.toNat <<< n := by
  have hb : b.toNat <<< n < 2 ^ 32 :=
    calc b.toNat <<< n < 2 ^ (8 + n) := Nat.shiftLeft_lt b.isLt
      _ ≤ 2 ^ 32 := Nat.pow_le_pow_right (by decide) (by omega)
  rw [BitVec.toNat_shiftLeft, BitVec.toNat_setWidth_of_le (by decide), Nat.mod_eq_of_lt hb]

/-- `field_value` as the big-endian number of the four bytes (R73): each byte is moved above all
those after it, so that the ors are sums. -/
theorem toNat_fieldValue (f : ChecksumField) :
    (fieldValue f).toNat =
      f.f0.toNat * 2 ^ 24 + f.f1.toNat * 2 ^ 16 + f.f2.toNat * 2 ^ 8 + f.f3.toNat := by
  have h1 := f.f1.isLt
  have h2 := f.f2.isLt
  have h3 := f.f3.isLt
  rw [fieldValue, BitVec.toNat_or, BitVec.toNat_or, BitVec.toNat_or,
    toNat_setWidth_shiftLeft _ (by decide), toNat_setWidth_shiftLeft _ (by decide),
    toNat_setWidth_shiftLeft _ (by decide), BitVec.toNat_setWidth_of_le (by decide),
    Nat.or_assoc, Nat.or_assoc,
    ← Nat.shiftLeft_add_eq_or_of_lt h3,
    ← Nat.shiftLeft_add_eq_or_of_lt (by omega) f.f1.toNat,
    ← Nat.shiftLeft_add_eq_or_of_lt (by omega) f.f0.toNat]
  omega

/-- The value of the field made for a checksum is the checksum (R73). -/
theorem fieldValue_crcField (r : Remainder) : fieldValue (crcField r) = r.setWidth 32 := by
  apply BitVec.eq_of_toNat_eq
  have hr : r.toNat < 2 ^ 16 := r.isLt
  rw [toNat_fieldValue]
  simp only [crcField, BitVec.extractLsb'_toNat, BitVec.toNat_setWidth, BitVec.ofNat_eq_ofNat,
    BitVec.toNat_ofNat, Nat.shiftRight_zero]
  omega

/-- Settles O39: the bytes by definition, the value by the weights of the four bytes, and the
register from the field's value. -/
theorem checksumFieldIsBigEndian : Obligations.ChecksumFieldIsBigEndian := by
  refine ⟨fun _ => rfl, toNat_fieldValue, fieldValue_crcField,
    fun s t bs hfit hlen hcells h => ?register⟩
  case register =>
    obtain rfl : report (setCrc s (crc16 bs)) .ok = t :=
      Host.Outcome.next.inj ((exec_crc16_of_cellsHold hfit hlen hcells).symm.trans h)
    rw [perform_regRead_crc_of_setCrc, fieldValue_crcField]
    rfl

/-- A field whose value is a zero-extended checksum begins with two zero bytes. -/
theorem leading_bytes_eq_zero_of_fieldValue_eq {f : ChecksumField} {r : Remainder}
    (h : fieldValue f = r.setWidth 32) : f.f0 = 0 ∧ f.f1 = 0 := by
  have hr : r.toNat < 2 ^ 16 := r.isLt
  have hvalue : (fieldValue f).toNat = r.toNat := by
    rw [h, BitVec.toNat_setWidth_of_le (by decide)]
  rw [toNat_fieldValue] at hvalue
  exact ⟨by bv_omega, by bv_omega⟩

theorem crcMatches_bits32_iff {f : ChecksumField} {r : Remainder} :
    crcMatches .bits32 f r = true ↔ fieldValue f = r.setWidth 32 :=
  beq_iff_eq

theorem crcMatches_bits16_iff {f : ChecksumField} {r : Remainder} :
    crcMatches .bits16 f r = true ↔ (fieldValue f).extractLsb' 0 16 = r :=
  beq_iff_eq

/-- Settles O40: each width's comparison is an equality, and a 32-bit match forces the two leading
bytes to 0. -/
theorem comparisonFollowsCheckWidth : Obligations.ComparisonFollowsCheckWidth := by
  refine ⟨fun f r => ⟨crcMatches_bits32_iff, crcMatches_bits16_iff⟩, fun f r hne => ?never, rfl⟩
  case never =>
    rw [Bool.eq_false_iff]
    intro hmatch
    obtain ⟨h0, h1⟩ := leading_bytes_eq_zero_of_fieldValue_eq (crcMatches_bits32_iff.1 hmatch)
    rcases hne with hf0 | hf1
    · exact hf0 h0
    · exact hf1 h1

end Sys2Proof.Machine
end

section
/-! PROOF. 41_hex_normalizer.md R85, R86: the two byte classes and the value of a digit, by the
number a byte is. -/

namespace Sys2Proof.Machine

theorem isHexDigit_iff {b : Byte} : isHexDigit b = true ↔
    (0x30 ≤ b.toNat ∧ b.toNat ≤ 0x39) ∨ (0x41 ≤ b.toNat ∧ b.toNat ≤ 0x46) ∨
    (0x61 ≤ b.toNat ∧ b.toNat ≤ 0x66) := by
  simp [isHexDigit, BitVec.le_def, or_assoc]

theorem isWs_iff {b : Byte} : isWs b = true ↔
    b.toNat = 0x20 ∨ b.toNat = 0x09 ∨ b.toNat = 0x0D ∨ b.toNat = 0x0A := by
  simp [isWs, ← BitVec.toNat_inj, or_assoc]

theorem inClass_iff {b : Byte} : inClass b = true ↔ isHexDigit b = true ∨ isWs b = true :=
  Bool.or_eq_true_iff

/-- The two classes have no byte in common. -/
theorem isWs_eq_false_of_isHexDigit {b : Byte} (h : isHexDigit b = true) : isWs b = false := by
  rw [Bool.eq_false_iff, Ne, isWs_iff]
  have hdigit := isHexDigit_iff.1 h
  omega

/-- Settles O42: membership by the bounds of the ranges, and the sizes by counting the 256 bytes. -/
theorem byteClassesAreAscii : Obligations.ByteClassesAreAscii :=
  ⟨fun _ => isHexDigit_iff, fun _ => isWs_iff, fun _ => inClass_iff, rfl, rfl, rfl⟩

theorem hexVal_of_decimal {b : Byte} (h0 : 0x30 ≤ b.toNat) (h9 : b.toNat ≤ 0x39) :
    hexVal b = some ((b - 0x30#8).setWidth 4) :=
  if_pos ⟨h0, h9⟩

theorem hexVal_of_upper {b : Byte} (hA : 0x41 ≤ b.toNat) (hF : b.toNat ≤ 0x46) :
    hexVal b = some ((b - 0x41#8 + 10#8).setWidth 4) := by
  have hdec : ¬ (0x30#8 ≤ b ∧ b ≤ 0x39#8) := by bv_omega
  rw [hexVal, if_neg hdec, if_pos ⟨hA, hF⟩]

theorem hexVal_of_lower {b : Byte} (ha : 0x61 ≤ b.toNat) (hf : b.toNat ≤ 0x66) :
    hexVal b = some ((b - 0x61#8 + 10#8).setWidth 4) := by
  have hdec : ¬ (0x30#8 ≤ b ∧ b ≤ 0x39#8) := by bv_omega
  have hup : ¬ (0x41#8 ≤ b ∧ b ≤ 0x46#8) := by bv_omega
  rw [hexVal, if_neg hdec, if_neg hup, if_pos ⟨ha, hf⟩]

/-- The lower-case form of a letter has the letter's value (R86). -/
theorem hexVal_add_case {b : Byte} (hA : 0x41 ≤ b.toNat) (hF : b.toNat ≤ 0x46) :
    hexVal (b + 0x20#8) = hexVal b := by
  have hlower : b + 0x20#8 - 0x61#8 = b - 0x41#8 := by bv_omega
  rw [hexVal_of_upper hA hF, hexVal_of_lower (by bv_omega) (by bv_omega), hlower]

/-- Settles O43: a lemma for each range, outside of which there is no value. -/
theorem hexDigitValues : Obligations.HexDigitValues := by
  refine fun b => ⟨fun h0 h9 => ?decimal, fun hA hF => ?upper, fun ha hf => ?lower,
    (hexVal_eq_none_iff b).2, hexVal_add_case⟩
  case decimal =>
    rw [hexVal_of_decimal h0 h9]
    exact congrArg some (by bv_omega)
  case upper =>
    rw [hexVal_of_upper hA hF]
    exact congrArg some (by bv_omega)
  case lower =>
    rw [hexVal_of_lower ha hf]
    exact congrArg some (by bv_omega)

end Sys2Proof.Machine
end

section
/-! PROOF. 41_hex_normalizer.md R87: the detection. -/

namespace Sys2Proof.Machine

theorem windowLooksLikeHex_iff {n : Nat} {w : List Byte} : windowLooksLikeHex n w = true ↔
    8 ≤ n ∧ n % 2 = 0 ∧ ∀ b ∈ w, inClass b = true := by
  simp [windowLooksLikeHex, and_assoc]

/-- A property of all members of a list, place by place. -/
theorem forall_mem_iff_forall_getElem? {l : List Byte} {p : Byte → Prop} :
    (∀ b ∈ l, p b) ↔ ∀ k < l.length, ∀ b, l[k]? = some b → p b := by
  constructor
  · exact fun h k _ b hb => h b (List.mem_of_getElem? hb)
  · intro h b hb
    obtain ⟨k, hk, rfl⟩ := List.mem_iff_getElem.1 hb
    exact h k hk _ (List.getElem?_eq_getElem hk)

theorem looksLikeHex_iff {window : Nat} {bs : List Byte} : looksLikeHex window bs = true ↔
    8 ≤ bs.length ∧ bs.length % 2 = 0 ∧ ∀ b ∈ bs.take window, inClass b = true :=
  windowLooksLikeHex_iff

theorem forall_mem_take_iff {window : Nat} {bs : List Byte} {p : Byte → Prop} :
    (∀ b ∈ bs.take window, p b) ↔
      ∀ k < min bs.length window, ∀ b, bs[k]? = some b → p b := by
  rw [forall_mem_iff_forall_getElem?, List.length_take, Nat.min_comm]
  refine forall₂_congr fun k hk => ?_
  rw [List.getElem?_take_of_lt (by omega)]

/-- Sequences that agree inside the window have the same window. -/
theorem take_congr {window : Nat} {as bs : List Byte} (h : ∀ k < window, as[k]? = bs[k]?) :
    as.take window = bs.take window := by
  apply List.ext_getElem?
  intro k
  rw [List.getElem?_take, List.getElem?_take]
  exact if_ctx_congr Iff.rfl (h k) fun _ => rfl

/-- Settles O44: the three tests, and that the last sees the window only. -/
theorem detectionTestsLengthAndWindow : Obligations.DetectionTestsLengthAndWindow := by
  refine ⟨fun window bs => ?tests, fun window as bs hlen hagree => ?window, rfl⟩
  case tests =>
    rw [looksLikeHex_iff, forall_mem_take_iff, Nat.mod_two_ne_one]
  case window => rw [looksLikeHex, looksLikeHex, hlen, take_congr hagree]

end Sys2Proof.Machine
end

section
/-! PROOF. 41_hex_normalizer.md R90, R91, R98: stripping and the conversion. -/

namespace Sys2Proof.Machine

theorem mem_strip {b : Byte} {bs : List Byte} : b ∈ strip bs ↔ b ∈ bs ∧ isWs b = false := by
  simp [strip]

@[simp] theorem strip_cons_ws {b : Byte} (bs : List Byte) (h : isWs b = true) :
    strip (b :: bs) = strip bs := by
  rw [strip_cons, if_pos h]

@[simp] theorem strip_cons_other {b : Byte} (bs : List Byte) (h : isWs b = false) :
    strip (b :: bs) = b :: strip bs := by
  rw [strip_cons, if_neg (by simp [h])]

/-- Settles O45: stripping acts on each byte by itself. -/
theorem stripRemovesWhitespaceEverywhere : Obligations.StripRemovesWhitespaceEverywhere := by
  refine fun bs => ⟨fun b => mem_strip, List.filter_sublist, fun as w hw => ?removed,
    fun as b hb => ?kept⟩
  case removed => rw [strip_append, strip_cons_ws bs hw]
  case kept => rw [strip_append, strip_cons_other bs hb]

theorem forall_isHexDigit_of_digitValues {bs : List Byte} {ds : List Nibble}
    (h : digitValues bs = some ds) : ∀ b ∈ bs, isHexDigit b = true := by
  intro b hb
  by_contra hne
  have hnone := digitValues_eq_none.2 ⟨b, hb, Bool.eq_false_iff.2 hne⟩
  cases h.symm.trans hnone

/-- NON_HEX wins over ODD_LENGTH: the parity is not looked at (R91). -/
theorem hexToBinary_eq_nonHex_iff {bs : List Byte} :
    hexToBinary bs = .error .nonHex ↔ ∃ b ∈ strip bs, isHexDigit b = false := by
  rcases hexToBinary_cases bs with ⟨hr, hbad⟩ | ⟨ds, hds, -, hr⟩
  · exact iff_of_true hr hbad
  · refine iff_of_false ?_ ?_
    · rcases hr with ⟨hr, -⟩ | ⟨hr, -⟩ <;> simp [hr]
    · simpa using forall_isHexDigit_of_digitValues hds

theorem hexToBinary_eq_oddLength_iff {bs : List Byte} :
    hexToBinary bs = .error .oddLength ↔
      (∀ b ∈ strip bs, isHexDigit b = true) ∧ (strip bs).length % 2 = 1 := by
  rcases hexToBinary_cases bs with ⟨hr, b, hb, hbad⟩ | ⟨ds, hds, hlen, hr⟩
  · refine iff_of_false (by simp [hr]) fun h => ?_
    simp [h.1 b hb] at hbad
  · rw [hlen] at hr
    rcases hr with ⟨hr, hodd⟩ | ⟨hr, heven⟩
    · exact iff_of_true hr ⟨forall_isHexDigit_of_digitValues hds, hodd⟩
    · exact iff_of_false (by simp [hr]) fun h => by omega

/-- The one success of the conversion: what it decodes, and that it was even. -/
theorem hexToBinary_eq_ok_iff {bs x : List Byte} :
    hexToBinary bs = .ok x ↔
      ∃ ds, digitValues (strip bs) = some ds ∧ (strip bs).length % 2 = 0 ∧ pairBytes ds = x := by
  rcases hexToBinary_cases bs with ⟨hr, hbad⟩ | ⟨ds, hds, hlen, hr⟩
  · refine iff_of_false (by simp [hr]) ?_
    simp [digitValues_eq_none.2 hbad]
  · simp only [hds, Option.some.injEq, exists_eq_left']
    rw [hlen] at hr
    rcases hr with ⟨hr, hodd⟩ | ⟨hr, heven⟩
    · simp [hr, hodd]
    · simp [hr, heven]

theorem exists_hexToBinary_eq_ok_iff {bs : List Byte} :
    (∃ x, hexToBinary bs = .ok x) ↔
      (∀ b ∈ strip bs, isHexDigit b = true) ∧ (strip bs).length % 2 = 0 := by
  simp only [hexToBinary_eq_ok_iff]
  constructor
  · rintro ⟨x, ds, hds, heven, -⟩
    exact ⟨forall_isHexDigit_of_digitValues hds, heven⟩
  · rintro ⟨hall, heven⟩
    cases hds : digitValues (strip bs) with
    | none =>
      obtain ⟨b, hb, hbad⟩ := digitValues_eq_none.1 hds
      simp [hall b hb] at hbad
    | some ds => exact ⟨pairBytes ds, ds, rfl, heven, rfl⟩

/-- The first digit of a pair in bits 7:4, the second in bits 3:0 (R91). -/
theorem nibble_append_eq (h l : Nibble) :
    (h ++ l : Byte) = (h.setWidth 8 <<< 4) ||| l.setWidth 8 := by
  rw [BitVec.append_def, BitVec.shiftLeftZeroExtend_eq, BitVec.setWidth'_eq]

/-- A place of a digit sequence, and the value of the digit there. -/
theorem exists_getElem?_of_digitValues {bs : List Byte} {ds : List Nibble}
    (h : digitValues bs = some ds) {k : Nat} (hk : k < bs.length) :
    ∃ b d, bs[k]? = some b ∧ hexVal b = some d ∧ ds[k]? = some d := by
  have hkd : k < ds.length := by rwa [digitValues_length h]
  have hmap := congrArg (·[k]?) (digitValues_eq_some.1 h)
  exact ⟨bs[k], ds[k], List.getElem?_eq_getElem hk, by simpa [hk, hkd] using hmap,
    List.getElem?_eq_getElem hkd⟩

/-- Output byte `k` of a conversion, from the digits `2k` and `2k+1` (R91). -/
theorem exists_digits_of_hexToBinary_ok {bs x : List Byte} (hx : hexToBinary bs = .ok x)
    {k : Nat} (hk : 2 * k + 1 < (strip bs).length) :
    ∃ (h l : Byte) (dh dl : Nibble),
      (strip bs)[2 * k]? = some h ∧ (strip bs)[2 * k + 1]? = some l ∧
      hexVal h = some dh ∧ hexVal l = some dl ∧
      x[k]? = some ((dh.setWidth 8 <<< 4) ||| dl.setWidth 8) := by
  obtain ⟨ds, hds, -, rfl⟩ := hexToBinary_eq_ok_iff.1 hx
  obtain ⟨h, dh, hh, hdh, hdsh⟩ := exists_getElem?_of_digitValues hds (by omega : 2 * k < _)
  obtain ⟨l, dl, hl, hdl, hdsl⟩ := exists_getElem?_of_digitValues hds hk
  refine ⟨h, l, dh, dl, hh, hl, hdh, hdl, ?_⟩
  rw [pairBytes_getElem? ds k dh dl hdsh hdsl, nibble_append_eq]

theorem length_of_hexToBinary_ok {bs x : List Byte} (hx : hexToBinary bs = .ok x) :
    x.length = (strip bs).length / 2 := by
  obtain ⟨ds, hds, -, rfl⟩ := hexToBinary_eq_ok_iff.1 hx
  rw [pairBytes_length, digitValues_length hds]

/-- Settles O46: a lemma for each of the three results, then the length of the output and each of
its bytes. -/
theorem conversionDecodesNibblePairs : Obligations.ConversionDecodesNibblePairs := by
  refine fun bs => ⟨hexToBinary_eq_nonHex_iff, hexToBinary_eq_oddLength_iff,
    exists_hexToBinary_eq_ok_iff, fun x hx => ⟨length_of_hexToBinary_ok hx, fun k hk => ?byte⟩⟩
  case byte =>
    rw [length_of_hexToBinary_ok hx] at hk
    exact exists_digits_of_hexToBinary_ok hx (by omega)

theorem strip_eq_nil_of_forall_isWs {bs : List Byte} (h : ∀ b ∈ bs, isWs b = true) :
    strip bs = [] := by
  simpa [strip] using h

/-- Nothing is left to convert when every byte is WS (R98). -/
theorem hexToBinary_of_forall_isWs {bs : List Byte} (h : ∀ b ∈ bs, isWs b = true) :
    hexToBinary bs = .ok [] := by
  rw [hexToBinary, strip_eq_nil_of_forall_isWs h]
  rfl

/-- Settles O52: WS bytes are in class, and stripping leaves none of them. -/
theorem whitespaceOnlyConvertsToNothing : Obligations.WhitespaceOnlyConvertsToNothing := by
  refine ⟨rfl, fun bs hws => ⟨strip_eq_nil_of_forall_isWs hws, hexToBinary_of_forall_isWs hws,
    fun window hlen heven => looksLikeHex_iff.2 ⟨hlen, heven, fun b hb => ?inClass⟩⟩⟩
  case inClass => exact inClass_iff.2 (.inr (hws b (List.mem_of_mem_take hb)))

end Sys2Proof.Machine
end

section
/-! PROOF. 41_hex_normalizer.md R94: the operation HEXDET. -/

namespace Sys2Proof.Machine

/-- HEXDET on a range of which the window is held, whatever lies beyond it (20_memory.md R37). -/
theorem exec_hexdet_of_window {s : State} {bs : List Byte}
    (hfit : s.off.toNat + s.len.toNat ≤ s.params.inMax) (hlen : s.len.toNat = bs.length)
    (hcells : cellsHold s.ibuf s.off.toNat (bs.take s.params.hexWindow)) :
    exec .hexdet s =
      .next (report (setHexlike s (looksLikeHex s.params.hexWindow bs)) .ok) := by
  have hwindow : (bs.take s.params.hexWindow).length = windowLength s := by
    rw [List.length_take, windowLength, hlen, Nat.min_comm]
  rw [looksLikeHex, ← hlen]
  exact overRange_accepted hfit hwindow hcells

/-- HEXDET completes when the window is written, and HEXLIKE is then the tests of R87 on LEN and
on the cells of the window. -/
theorem exec_hexdet_of_cellsWritten {s : State}
    (hfit : s.off.toNat + s.len.toNat ≤ s.params.inMax)
    (hwritten : cellsWritten s.ibuf s.off.toNat (min s.len.toNat s.params.hexWindow)) :
    ∃ t, exec .hexdet s = .next t ∧
      (statusHexlike t.status = true ↔ 8 ≤ s.len.toNat ∧ s.len.toNat % 2 = 0 ∧
        ∀ k < min s.len.toNat s.params.hexWindow, ∀ b,
          readCell s.ibuf (s.off.toNat + k) = some b → inClass b = true) := by
  obtain ⟨w, hread⟩ := readCells_of_written hwritten
  obtain ⟨hlen, hcells⟩ := readCells_eq_ok.1 hread
  refine ⟨_, overRange_accepted hfit hlen hcells, ?_⟩
  rw [report_status, setHexlike_status, statusHexlike_withErr, statusHexlike_withHexlike,
    windowLooksLikeHex_iff, forall_mem_iff_forall_getElem?, ← hlen]
  refine and_congr_right fun _ => and_congr_right fun _ => forall₂_congr fun k hk => ?_
  rw [hcells k hk]

/-- STATUS as read is known by its two fields (20_memory.md R31). -/
theorem statusRead_congr {v w : Word} (herr : statusErr v = statusErr w)
    (hlike : statusHexlike v = statusHexlike w) : statusRead v = statusRead w := by
  apply BitVec.eq_of_getLsbD_eq
  intro k h32
  rw [getLsbD_statusRead v h32, getLsbD_statusRead w h32]
  by_cases h3 : k < 3
  · have hbit := congrArg (·.getLsbD k) herr
    simp only [statusErr, BitVec.getLsbD_extractLsb', h3, decide_true, Bool.true_and,
      Nat.zero_add] at hbit
    rw [hbit]
  · by_cases h8 : k = 8
    · subst h8
      exact congrArg (· && _) hlike
    · simp [h3, h8]

/-- What the host reads after a positive detection. -/
theorem statusRead_after_detection (w : Word) :
    statusRead (withErr (withHexlike w true) 0) = 0x00000100 := by
  have hread : statusRead 0x00000100 = 0x00000100 := by decide
  rw [← hread]
  refine statusRead_congr ?_ ?_
  · rw [statusErr_withErr]
    decide
  · rw [statusHexlike_withErr, statusHexlike_withHexlike]
    decide

/-- The worked example of R94 is no longer than a window of 8 or more, so all of it is tested. -/
theorem looksLikeHex_worked {window : Nat} (h : 8 ≤ window) :
    looksLikeHex window [0x30, 0x31, 0x41, 0x62, 0x20, 0x09, 0x0D, 0x0A] = true := by
  rw [looksLikeHex, List.take_of_length_le (by simpa using h)]
  decide

/-- Settles O54: the accepted operation by the bytes and by the cells of the window, the
rejection, the fault, then the two detections. -/
theorem hexdetLatchesTheDetection : Obligations.HexdetLatchesTheDetection := by
  refine ⟨decode_encode .hexdet, fun s bs hfit hlen hcells => ?accepted,
    fun s hfit hwritten => ?corners, fun s hout => exec_rejected .hexdet hout,
    fun s k hfit hk hcell => ?unwritten, ?spaces, fun s hoff hlen hmax hwindow hcells => ?worked⟩
  case accepted => exact exec_hexdet_of_window hfit hlen hcells
  case corners =>
    obtain ⟨t, hrun, hlike⟩ := exec_hexdet_of_cellsWritten hfit hwritten
    refine ⟨t, hrun, fun hlen => ?length, fun hbad => ?outside, fun hmin heven hclass => ?positive⟩
    case length =>
      rw [Bool.eq_false_iff, Ne, hlike]
      omega
    case outside =>
      obtain ⟨k, b, hk, hb, hbad⟩ := hbad
      rw [Bool.eq_false_iff, Ne, hlike]
      rintro ⟨-, -, hclass⟩
      cases hbad.symm.trans (hclass k hk b hb)
    case positive => exact hlike.2 ⟨hmin, heven, hclass⟩
  case unwritten =>
    obtain ⟨x, hx⟩ := exists_readCells_eq_error hk hcell
    exact ⟨x, overRange_unwritten hfit hx⟩
  case spaces => decide
  case worked =>
    have hoff0 : s.off.toNat = 0 := by rw [hoff]; rfl
    have hlen8 : s.len.toNat = 8 := by rw [hlen]; rfl
    rw [← hoff0] at hcells
    have hrun := exec_hexdet_of_cellsHold (by omega) hlen8 hcells
    rw [looksLikeHex_worked hwindow] at hrun
    refine ⟨_, hrun, ?_⟩
    rw [perform_regRead (r := .status) _ rfl, readReg, report_status, setHexlike_status, errValue,
      statusRead_after_detection]
    rfl

end Sys2Proof.Machine
end

section
/-! PROOF. 41_hex_normalizer.md R95: the operation HEX2BIN. -/

namespace Sys2Proof.Machine

/-- What a successful HEX2BIN leaves: the output from OBUF[0] on, its length and ERR = 0. -/
theorem storeConversion_ok (s : State) (x : List Byte) :
    storeConversion s (.ok x) =
      { s with obuf := writeCells s.obuf 0 x, olen := BitVec.ofNat 32 x.length,
               status := withErr s.status 0 } := rfl

/-- The output of a conversion of a range that fits IBUF fits OBUF and a register (R96). -/
theorem length_le_outMax_of_hexToBinary_ok {s : State} {bs x : List Byte}
    (hfit : s.off.toNat + s.len.toNat ≤ s.params.inMax) (hlen : s.len.toNat = bs.length)
    (hx : hexToBinary bs = .ok x) : x.length < 2 ^ 32 ∧ x.length ≤ s.params.outMax := by
  have hhalf := two_mul_length_le_of_hexToBinary_ok hx
  have hlt := s.len.isLt
  exact ⟨by omega, by rw [Params.outMax]; omega⟩

/-- A conversion error stores OLEN = 0 and its code and nothing else. -/
theorem exec_hex2bin_of_error {s : State} {bs : List Byte} {e : ConversionError}
    (hfit : s.off.toNat + s.len.toNat ≤ s.params.inMax) (hlen : s.len.toNat = bs.length)
    (hcells : cellsHold s.ibuf s.off.toNat bs) (he : hexToBinary bs = .error e) :
    exec .hex2bin s = .next { s with
      olen := 0, status := withErr s.status (errValue (conversionCode e)) } := by
  rw [exec_hex2bin_of_cellsHold hfit hlen hcells, he]
  rfl

/-- HEX2BIN over the empty range stores the empty output, wherever in IBUF the range stands. -/
theorem exec_hex2bin_of_len_zero {s : State} (hlen : s.len = 0)
    (hoff : s.off.toNat ≤ s.params.inMax) :
    exec .hex2bin s = .next { s with olen := 0, status := withErr s.status 0 } := by
  have hzero : s.len.toNat = 0 := by rw [hlen]; rfl
  exact exec_hex2bin_of_cellsHold (bs := []) (by omega) hzero nofun

/-- A digit alone is half a byte (R95, corner cases). -/
theorem hexToBinary_singleton {b : Byte} (h : isHexDigit b = true) :
    hexToBinary [b] = .error .oddLength := by
  have hstrip : strip [b] = [b] := strip_cons_other [] (isWs_eq_false_of_isHexDigit h)
  rw [hexToBinary_eq_oddLength_iff, hstrip]
  exact ⟨by simpa using h, rfl⟩

/-- Settles O55: the success, the two errors, the rejection and the fault, then the corner cases
and the worked example. -/
theorem hex2binConvertsTheRange : Obligations.Hex2binConvertsTheRange := by
  refine ⟨decode_encode .hex2bin, fun s bs x hfit hlen hcells hx => ?success,
    fun s bs hfit hlen hcells => ⟨fun hx => ?oddLength, fun hx => ?nonHex⟩,
    fun s hout => exec_rejected .hex2bin hout, fun s k hfit hk hcell => ?unwritten,
    fun s hlen hoff => exec_hex2bin_of_len_zero hlen hoff,
    fun bs hws => hexToBinary_of_forall_isWs hws, rfl, rfl, fun b hb => hexToBinary_singleton hb,
    rfl⟩
  case success =>
    obtain ⟨h32, hout⟩ := length_le_outMax_of_hexToBinary_ok hfit hlen hx
    have hrun := exec_hex2bin_of_cellsHold hfit hlen hcells
    rw [hx, storeConversion_ok] at hrun
    exact ⟨_, hrun, h32, hout, fun k hk => readCell_storeConversion_ok s hk,
      fun k hk => readCell_storeConversion_ok_beyond s hk⟩
  case oddLength => exact exec_hex2bin_of_error (e := .oddLength) hfit hlen hcells hx
  case nonHex => exact exec_hex2bin_of_error (e := .nonHex) hfit hlen hcells hx
  case unwritten =>
    obtain ⟨x, hx⟩ := exists_readCells_eq_error hk hcell
    exact ⟨x, overRange_unwritten hfit hx⟩

end Sys2Proof.Machine
end

section
/-! PROOF. 60_exceptions.md R111: the codes of ERR. -/

namespace Sys2Proof.Machine

/-- The codes stop at 4, ERR_RANGE (R111). -/
theorem errValue_toNat_le (e : ErrCode) : (errValue e).toNat ≤ 4 := by
  cases e <;> decide

/-- Either result of a conversion is reported under one of the five codes. -/
theorem exists_statusErr_storeConversion (s : State) (r : Except ConversionError (List Byte)) :
    ∃ e, statusErr (storeConversion s r).status = errValue e := by
  cases r with
  | ok x => exact ⟨.ok, statusErr_withErr _ _⟩
  | error e => exact ⟨conversionCode e, statusErr_withErr _ _⟩

/-- An operation over the range ends with one of the five codes when what it runs does. -/
theorem overRange_statusErr {s t : State} {n : Nat} {op : List Byte → State}
    (hop : ∀ bs, ∃ e, statusErr (op bs).status = errValue e) (h : overRange s n op = .next t) :
    ∃ e, statusErr t.status = errValue e := by
  rcases overRange_next h with ⟨-, rfl⟩ | ⟨-, bs, -, -, rfl⟩
  · exact ⟨.range, statusErr_withErr _ _⟩
  · exact hop bs

theorem exec_statusErr {i : Instr} {s t : State} (h : exec i s = .next t) :
    ∃ e, statusErr t.status = errValue e := by
  cases i with
  | crc16 => exact overRange_statusErr (fun _ => ⟨.ok, statusErr_withErr _ _⟩) h
  | hexdet => exact overRange_statusErr (fun _ => ⟨.ok, statusErr_withErr _ _⟩) h
  | hex2bin => exact overRange_statusErr (fun _ => exists_statusErr_storeConversion s _) h

/-- A write to CMD that completes reports one of the five outcomes (R110). -/
theorem perform_command_statusErr {s t : State} {v : Word}
    (h : perform (.regWrite 0 v) s = .next t) : ∃ e, statusErr t.status = errValue e := by
  by_cases hv : ∃ i, v = encode i
  · obtain ⟨i, rfl⟩ := hv
    exact exec_statusErr ((perform_encode s i).symm.trans h)
  · rw [perform_illegal_command s (not_exists.1 hv)] at h
    obtain rfl := Host.Outcome.next.inj h
    exact ⟨.illegalCmd, statusErr_withErr _ _⟩

/-- Settles O56: the codes by definition, and what is reported is the code of an outcome. -/
theorem errCodesAreZeroToFour : Obligations.ErrCodesAreZeroToFour := by
  refine ⟨rfl, rfl, rfl, rfl, rfl, fun s t v h => ?bound⟩
  case bound =>
    obtain ⟨e, he⟩ := perform_command_statusErr h
    rw [he]
    exact errValue_toNat_le e

end Sys2Proof.Machine
end

section
/-! PROOF. 60_exceptions.md R112: what cannot fail, and what leaves STATUS alone. -/

namespace Sys2Proof.Machine

/-- If a register write other than a command completes, it stored OFF or LEN or was ignored
(20_memory.md R32). -/
theorem regWrite_next {s t : State} {n : Nat} {v : Word} (hn : n ≠ 0)
    (h : perform (.regWrite n v) s = .next t) :
    t = { s with off := v } ∨ t = { s with len := v } ∨ t = s := by
  match n, hn, h with
  | 1, _, h => exact .inl (Host.Outcome.next.inj h).symm
  | 2, _, h => exact .inr (.inl (Host.Outcome.next.inj h).symm)
  | 3, _, h | 4, _, h | 5, _, h => exact .inr (.inr (Host.Outcome.next.inj h).symm)
  | n + 6, _, h =>
    rw [perform_regWrite_refused s v (by omega)] at h
    cases h

theorem regWrite_status {s t : State} {n : Nat} {v : Word} (hn : n ≠ 0)
    (h : perform (.regWrite n v) s = .next t) : t.status = s.status := by
  rcases regWrite_next hn h with rfl | rfl | rfl <;> rfl

/-- STATUS is written by commands only (R112). -/
theorem perform_status {s t : State} {tr : Transaction} (htr : ∀ v, tr ≠ .regWrite 0 v)
    (h : perform tr s = .next t) : t.status = s.status := by
  cases tr with
  | regRead n =>
    obtain ⟨r, -, rfl⟩ := regRead_next h
    exact answer_status s _
  | regWrite n v =>
    have hn : n ≠ 0 := by
      rintro rfl
      exact htr v rfl
    exact regWrite_status hn h
  | ibufWrite a b =>
    obtain ⟨-, rfl⟩ := ibufWrite_next h
    rfl
  | ibufRead a =>
    obtain ⟨-, b, -, rfl⟩ := ibufRead_next h
    exact answer_status s _
  | obufRead a =>
    obtain ⟨-, b, -, rfl⟩ := obufRead_next h
    exact answer_status s _

/-- Settles O57: the two operations by their write sets, and the other transactions by theirs. -/
theorem whatCannotFail : Obligations.WhatCannotFail := by
  refine ⟨fun s t i hi hfit h => ?operation, fun s t tr htr h => perform_status htr h⟩
  case operation =>
    rw [perform_encode] at h
    rcases hi with rfl | rfl
    · rw [execCrc16_writes hfit h]
      exact statusErr_withErr _ _
    · rw [execHexdet_writes hfit h]
      exact statusErr_withErr _ _

end Sys2Proof.Machine
end

section
/-! PROOF. 60_exceptions.md R113: the order of the codes. -/

namespace Sys2Proof.Machine

/-- When every byte is WS or a digit, stripping leaves the digits. -/
theorem strip_eq_filter_isHexDigit {bs : List Byte}
    (h : ∀ b ∈ bs, isWs b = true ∨ isHexDigit b = true) : strip bs = bs.filter isHexDigit := by
  refine List.filter_congr fun b hb => ?_
  cases hdigit : isHexDigit b with
  | true => rw [isWs_eq_false_of_isHexDigit hdigit, Bool.not_false]
  | false =>
    have hws : isWs b = true := (h b hb).resolve_right (by simp [hdigit])
    rw [hws, Bool.not_true]

/-- A byte that is neither WS nor a digit is NON_HEX, whatever the number of digits (R113). -/
theorem hexToBinary_of_outside {bs : List Byte}
    (h : ∃ b ∈ bs, isWs b = false ∧ isHexDigit b = false) : hexToBinary bs = .error .nonHex := by
  obtain ⟨b, hb, hws, hdigit⟩ := h
  exact hexToBinary_eq_nonHex_iff.2 ⟨b, mem_strip.2 ⟨hb, hws⟩, hdigit⟩

section
/-! The conversion of WS and digits only, by the parity of the digits. -/

variable {bs : List Byte} (hclass : ∀ b ∈ bs, isWs b = true ∨ isHexDigit b = true)

include hclass

theorem forall_mem_strip_isHexDigit : ∀ b ∈ strip bs, isHexDigit b = true := by
  rw [strip_eq_filter_isHexDigit hclass]
  exact fun b hb => List.of_mem_filter hb

theorem hexToBinary_of_odd_digits (hodd : (bs.filter isHexDigit).length % 2 = 1) :
    hexToBinary bs = .error .oddLength := by
  rw [← strip_eq_filter_isHexDigit hclass] at hodd
  exact hexToBinary_eq_oddLength_iff.2 ⟨forall_mem_strip_isHexDigit hclass, hodd⟩

theorem hexToBinary_of_even_digits (heven : (bs.filter isHexDigit).length % 2 = 0) :
    ∃ x, hexToBinary bs = .ok x := by
  rw [← strip_eq_filter_isHexDigit hclass] at heven
  exact exists_hexToBinary_eq_ok_iff.2 ⟨forall_mem_strip_isHexDigit hclass, heven⟩

end

/-- Settles O58: the word, then the range, then for HEX2BIN the result of the conversion. -/
theorem errorPriority : Obligations.ErrorPriority := by
  refine fun s v => ⟨fun hv => ?illegal, ?range, fun bs hfit hlen hcells =>
    ⟨?nonHex, ?oddLength, ?converted, ?crc16OrHexdet⟩⟩
  case illegal => exact ⟨_, perform_illegal_command s hv, statusErr_withErr _ _⟩
  case range =>
    rintro i rfl hout
    rw [perform_encode]
    exact ⟨_, exec_rejected i hout, statusErr_withErr _ _⟩
  case nonHex =>
    rintro rfl hbad
    rw [perform_encode]
    exact ⟨_, exec_hex2bin_of_error hfit hlen hcells (hexToBinary_of_outside hbad),
      statusErr_withErr _ _⟩
  case oddLength =>
    rintro rfl hclass hodd
    rw [perform_encode]
    exact ⟨_, exec_hex2bin_of_error hfit hlen hcells (hexToBinary_of_odd_digits hclass hodd),
      statusErr_withErr _ _⟩
  case converted =>
    rintro rfl hclass heven
    obtain ⟨x, hx⟩ := hexToBinary_of_even_digits hclass heven
    have hrun := exec_hex2bin_of_cellsHold hfit hlen hcells
    rw [hx] at hrun
    rw [perform_encode]
    exact ⟨_, hrun, statusErr_withErr _ _⟩
  case crc16OrHexdet =>
    rintro (rfl | rfl) <;> rw [perform_encode]
    · exact ⟨_, exec_crc16_of_cellsHold hfit hlen hcells, statusErr_withErr _ _⟩
    · exact ⟨_, exec_hexdet_of_cellsHold hfit hlen hcells, statusErr_withErr _ _⟩

end Sys2Proof.Machine
end

section
/-! PROOF. 30_encoding.md R51, R53, R54: decode and encode agree, and the words that do not decode,
by the value of the word. -/

namespace Sys2Proof.Machine

/-- Settles O3: decoding inverts encoding, and what decodes is a command word. -/
theorem decodeEncodeAgree : Obligations.DecodeEncodeAgree :=
  ⟨fun i _ => decode_encode i, fun _ _ h => (eq_encode_of_decode_eq_ok h).symm⟩

/-- Bits 31:8 are zero exactly in the words below 256. -/
theorem zeroField_eq_zero_iff {v : Word} : zeroField v = 0 ↔ v.toNat < 256 := by
  have hv := v.isLt
  have hfield : (zeroField v).toNat = v.toNat >>> 8 % 2 ^ 24 := BitVec.extractLsb'_toNat 8 24 v
  have hzero : (0 : BitVec 24).toNat = 0 := rfl
  rw [← BitVec.toNat_inj, hfield, hzero, Nat.shiftRight_eq_div_pow]
  omega

/-- A word below 256 is its opcode. -/
theorem toNat_eq_toNat_opcodeField {v : Word} (h : v.toNat < 256) :
    v.toNat = (opcodeField v).toNat := by
  have hfield : (opcodeField v).toNat = v.toNat >>> 0 % 2 ^ 8 := BitVec.extractLsb'_toNat 0 8 v
  rw [hfield, Nat.shiftRight_zero]
  exact (Nat.mod_eq_of_lt h).symm

theorem opcodeOf_toNat_bounds (i : Instr) : 1 ≤ (opcodeOf i).toNat ∧ (opcodeOf i).toNat ≤ 3 := by
  cases i <;> decide

/-- The opcode map has an instruction for each of 1, 2 and 3 (R53). -/
theorem exists_opcodeOf_iff {o : Byte} :
    (∃ i, o = opcodeOf i) ↔ 1 ≤ o.toNat ∧ o.toNat ≤ 3 := by
  constructor
  · rintro ⟨i, rfl⟩
    exact opcodeOf_toNat_bounds i
  · rintro ⟨h1, h3⟩
    obtain h | h | h : o = 1 ∨ o = 2 ∨ o = 3 := by bv_omega
    · exact ⟨.crc16, h⟩
    · exact ⟨.hexdet, h⟩
    · exact ⟨.hex2bin, h⟩

theorem decode_of_zeroField_ne {v : Word} (hz : zeroField v ≠ 0) :
    decode v = .error .reservedBits :=
  if_pos hz

theorem decode_of_zeroField_eq_zero {v : Word} (hz : zeroField v = 0)
    (ho : ¬ ∃ i, opcodeField v = opcodeOf i) :
    decode v = .error (.reservedOpcode (opcodeField v)) := by
  have h1 : opcodeField v ≠ 0x01 := fun h => ho ⟨.crc16, h⟩
  have h2 : opcodeField v ≠ 0x02 := fun h => ho ⟨.hexdet, h⟩
  have h3 : opcodeField v ≠ 0x03 := fun h => ho ⟨.hex2bin, h⟩
  exact (if_neg (not_not.2 hz)).trans <| (if_neg h1).trans <| (if_neg h2).trans (if_neg h3)

/-- The three things the decoder can answer, by the two fields (R59). -/
theorem decode_cases (v : Word) :
    (zeroField v ≠ 0 ∧ decode v = .error .reservedBits) ∨
    (zeroField v = 0 ∧ (¬ ∃ i, opcodeField v = opcodeOf i) ∧
      decode v = .error (.reservedOpcode (opcodeField v))) ∨
    (zeroField v = 0 ∧ ∃ i, opcodeField v = opcodeOf i ∧ decode v = .ok i) := by
  by_cases hz : zeroField v = 0
  · by_cases ho : ∃ i, opcodeField v = opcodeOf i
    · obtain ⟨i, hi⟩ := ho
      exact .inr (.inr ⟨hz, i, hi, decode_eq_ok_iff.2 (eq_encode_iff_fields.2 ⟨hz, hi⟩)⟩)
    · exact .inr (.inl ⟨hz, ho, decode_of_zeroField_eq_zero hz ho⟩)
  · exact .inl ⟨hz, decode_of_zeroField_ne hz⟩

theorem decode_eq_reservedBits_iff {v : Word} :
    decode v = .error .reservedBits ↔ zeroField v ≠ 0 := by
  rcases decode_cases v with ⟨hz, hd⟩ | ⟨hz, -, hd⟩ | ⟨hz, i, -, hd⟩
  · exact iff_of_true hd hz
  · exact iff_of_false (by simp [hd]) (not_not.2 hz)
  · exact iff_of_false (by simp [hd]) (not_not.2 hz)

/-- A word with bits 31:8 zero whose opcode is none of the map is refused under that opcode. -/
theorem decode_eq_reservedOpcode_iff {v : Word} {o : Byte} :
    decode v = .error (.reservedOpcode o) ↔
      zeroField v = 0 ∧ opcodeField v = o ∧ ¬ ∃ i, o = opcodeOf i := by
  rcases decode_cases v with ⟨hz, hd⟩ | ⟨hz, ho, hd⟩ | ⟨hz, i, hi, hd⟩
  · exact iff_of_false (by simp [hd]) fun h => hz h.1
  · rw [hd, Except.error.injEq, IllegalWord.reservedOpcode.injEq]
    refine ⟨?_, fun h => h.2.1⟩
    rintro rfl
    exact ⟨hz, rfl, ho⟩
  · refine iff_of_false (by simp [hd]) ?_
    rintro ⟨-, rfl, hno⟩
    exact hno ⟨i, hi⟩

theorem exists_decode_eq_ok_iff {v : Word} :
    (∃ i, decode v = .ok i) ↔ zeroField v = 0 ∧ ∃ i, opcodeField v = opcodeOf i := by
  simp only [decode_eq_ok_iff, eq_encode_iff_fields, exists_and_left]

/-- Settles O4: the zero field decides the first name, the opcode the second. -/
theorem illegalWordsAreNamed : Obligations.IllegalWordsAreNamed := by
  refine fun v => ⟨?reservedBits, fun o => ?reservedOpcode, ?decodes⟩
  case reservedBits => rw [decode_eq_reservedBits_iff, Ne, zeroField_eq_zero_iff, Nat.not_lt]
  case reservedOpcode =>
    have ho := o.isLt
    rw [decode_eq_reservedOpcode_iff, zeroField_eq_zero_iff, exists_opcodeOf_iff]
    constructor
    · rintro ⟨hv, rfl, hno⟩
      exact ⟨toNat_eq_toNat_opcodeField hv, by omega⟩
    · rintro ⟨hv, hno⟩
      have h256 : v.toNat < 256 := by omega
      exact ⟨h256, BitVec.eq_of_toNat_eq ((toNat_eq_toNat_opcodeField h256).symm.trans hv),
        by omega⟩
  case decodes =>
    rw [exists_decode_eq_ok_iff, zeroField_eq_zero_iff, exists_opcodeOf_iff]
    constructor
    · rintro ⟨hv, hopcode⟩
      rwa [toNat_eq_toNat_opcodeField hv]
    · intro hv
      have h256 : v.toNat < 256 := by omega
      rw [← toNat_eq_toNat_opcodeField h256]
      exact ⟨h256, hv⟩

/-- Settles O1: the three are the command words, and the other two are refused by their fields. -/
theorem commandWordsDecode : Obligations.CommandWordsDecode := by
  refine ⟨decode_encode .crc16, decode_encode .hexdet, decode_encode .hex2bin, ?zero, ?topBit⟩
  case zero => exact decode_eq_reservedOpcode_iff.2 ⟨by decide, by decide, by
    rw [exists_opcodeOf_iff]; decide⟩
  case topBit => exact decode_eq_reservedBits_iff.2 (by decide)

end Sys2Proof.Machine
end

section
/-! PROOF. 20_memory.md R35: reading OBUF. -/

namespace Sys2Proof.Machine

theorem perform_obufRead_written {s : State} {a : Nat} {b : Byte} (ha : a < s.params.outMax)
    (hb : readCell s.obuf a = some b) : perform (.obufRead a) s = .next (answer s (.byte b)) := by
  simp only [perform, obufRead, if_pos ha, hb]

theorem perform_obufRead_unwritten {s : State} {a : Nat} (ha : a < s.params.outMax)
    (hb : readCell s.obuf a = none) : perform (.obufRead a) s = .fault (.unwrittenObuf a) := by
  simp only [perform, obufRead, if_pos ha, hb]

/-- Settles O15: the three answers of the read, by the cell and the capacity. -/
theorem obufReadReturnsTheCell : Obligations.ObufReadReturnsTheCell := fun _ _ =>
  ⟨fun ha => ⟨fun _ hb => perform_obufRead_written ha hb,
    fun hb => perform_obufRead_unwritten ha hb⟩, fun ha => perform_obufRead_refused ha⟩

end Sys2Proof.Machine
end

section
/-! PROOF. 20_memory.md R36, R37, R43: the three operations as one function of the bytes of the read
set, what that function leaves unchanged, and when an operation completes. -/

namespace Sys2Proof.Machine

/-- What an accepted operation makes of the bytes of its read set (40_checksum.md R72,
41_hex_normalizer.md R94, R95). -/
def operate : Instr → State → List Byte → State
  | .crc16, s, bs => report (setCrc s (crc16 bs)) .ok
  | .hexdet, s, w => report (setHexlike s (windowLooksLikeHex s.len.toNat w)) .ok
  | .hex2bin, s, bs => storeConversion s (hexToBinary bs)

theorem exec_eq_overRange (i : Instr) (s : State) :
    exec i s = overRange s (readLength i s) (operate i s) := by
  cases i with
  | crc16 => rfl
  | hexdet => rfl
  | hex2bin => rfl

theorem exec_accepted {i : Instr} {s : State} {bs : List Byte}
    (hfit : s.off.toNat + s.len.toNat ≤ s.params.inMax) (hlen : bs.length = readLength i s)
    (hcells : cellsHold s.ibuf s.off.toNat bs) : exec i s = .next (operate i s bs) :=
  (exec_eq_overRange i s).trans (overRange_accepted hfit hlen hcells)

theorem exec_unwritten {i : Instr} {s : State} {x : Nat}
    (hfit : s.off.toNat + s.len.toNat ≤ s.params.inMax)
    (hx : readCells s.ibuf s.off.toNat (readLength i s) = .error x) :
    exec i s = .fault (.unwrittenIbuf x) :=
  (exec_eq_overRange i s).trans (overRange_unwritten hfit hx)

/-- If an operation answers a next state, it was rejected or it ran on the bytes of its read set. -/
theorem exec_next {i : Instr} {s t : State} (h : exec i s = .next t) :
    (s.params.inMax < s.off.toNat + s.len.toNat ∧ t = report s .range) ∨
    (s.off.toNat + s.len.toNat ≤ s.params.inMax ∧
      ∃ bs : List Byte, bs.length = readLength i s ∧ cellsHold s.ibuf s.off.toNat bs ∧
        t = operate i s bs) := by
  rw [exec_eq_overRange] at h
  exact overRange_next h

/-- If an operation faults, its range fits and a cell of its read set is unwritten. -/
theorem exec_fault {i : Instr} {s : State} {f : Fault} (h : exec i s = .fault f) :
    s.off.toNat + s.len.toNat ≤ s.params.inMax ∧
      ∃ x, readCells s.ibuf s.off.toNat (readLength i s) = .error x ∧ f = .unwrittenIbuf x := by
  rw [exec_eq_overRange] at h
  rcases overRange_cases s (readLength i s) (operate i s) with
    ⟨-, he⟩ | ⟨-, bs, -, -, he⟩ | ⟨hfit, x, hx, he⟩
  · cases he.symm.trans h
  · cases he.symm.trans h
  · exact ⟨hfit, x, hx, (Host.Outcome.fault.inj (he.symm.trans h)).symm⟩

/-- An operation completes exactly when its range does not fit or its read set is written. -/
theorem exists_exec_eq_next_iff {i : Instr} {s : State} :
    (∃ t, exec i s = .next t) ↔
      (rangeFits s = true → cellsWritten s.ibuf s.off.toNat (readLength i s)) := by
  rw [rangeFits_iff]
  constructor
  · rintro ⟨t, ht⟩ hfit k hk
    rcases exec_next ht with ⟨hout, -⟩ | ⟨-, bs, hlen, hcells, -⟩
    · omega
    · rw [← hlen] at hk
      rw [hcells k hk, List.getElem?_eq_getElem hk, Option.isSome_some]
  · intro hwritten
    by_cases hfit : s.off.toNat + s.len.toNat ≤ s.params.inMax
    · obtain ⟨bs, hread⟩ := readCells_of_written (hwritten hfit)
      obtain ⟨hlen, hcells⟩ := readCells_eq_ok.1 hread
      exact ⟨_, exec_accepted hfit hlen hcells⟩
    · exact ⟨_, exec_rejected i (Nat.not_le.1 hfit)⟩

section
/-! The frame of `storeConversion` and of `operate`, field by field. -/

variable (s : State) (r : Except ConversionError (List Byte)) (i : Instr) (bs : List Byte)

@[simp] theorem storeConversion_params : (storeConversion s r).params = s.params := by
  cases r <;> rfl

@[simp] theorem storeConversion_off : (storeConversion s r).off = s.off := by
  cases r <;> rfl

@[simp] theorem storeConversion_len : (storeConversion s r).len = s.len := by
  cases r <;> rfl

@[simp] theorem storeConversion_events : (storeConversion s r).events = s.events := by
  cases r <;> rfl

@[simp] theorem operate_params : (operate i s bs).params = s.params := by
  cases i with
  | crc16 | hexdet => rfl
  | hex2bin => exact storeConversion_params s _

@[simp] theorem operate_off : (operate i s bs).off = s.off := by
  cases i with
  | crc16 | hexdet => rfl
  | hex2bin => exact storeConversion_off s _

@[simp] theorem operate_len : (operate i s bs).len = s.len := by
  cases i with
  | crc16 | hexdet => rfl
  | hex2bin => exact storeConversion_len s _

@[simp] theorem operate_ibuf : (operate i s bs).ibuf = s.ibuf := by
  cases i with
  | crc16 | hexdet => rfl
  | hex2bin => exact storeConversion_ibuf s _

@[simp] theorem operate_events : (operate i s bs).events = s.events := by
  cases i with
  | crc16 | hexdet => rfl
  | hex2bin => exact storeConversion_events s _

end

/-- No operation writes the parameters, OFF, LEN, IBUF or the input of the run (10_state.md R21). -/
theorem exec_frame {i : Instr} {s t : State} (h : exec i s = .next t) :
    t.params = s.params ∧ t.off = s.off ∧ t.len = s.len ∧ t.ibuf = s.ibuf ∧
      t.events = s.events := by
  rcases exec_next h with ⟨-, rfl⟩ | ⟨-, bs, -, -, rfl⟩
  · exact ⟨rfl, rfl, rfl, rfl, rfl⟩
  · exact ⟨operate_params s i bs, operate_off s i bs, operate_len s i bs, operate_ibuf s i bs,
      operate_events s i bs⟩

/-- A write to CMD that completes ran an instruction or reported an illegal word (R59). -/
theorem command_next {s t : State} {v : Word} (h : perform (.regWrite 0 v) s = .next t) :
    (∃ i, v = encode i ∧ exec i s = .next t) ∨
    ((∀ i, v ≠ encode i) ∧ t = report s .illegalCmd) := by
  by_cases hv : ∃ i, v = encode i
  · obtain ⟨i, rfl⟩ := hv
    exact .inl ⟨i, rfl, (perform_encode s i).symm.trans h⟩
  · rw [perform_illegal_command s (not_exists.1 hv)] at h
    exact .inr ⟨not_exists.1 hv, (Host.Outcome.next.inj h).symm⟩

theorem command_frame {s t : State} {v : Word} (h : perform (.regWrite 0 v) s = .next t) :
    t.params = s.params ∧ t.off = s.off ∧ t.len = s.len ∧ t.ibuf = s.ibuf ∧
      t.events = s.events := by
  rcases command_next h with ⟨i, -, hi⟩ | ⟨-, rfl⟩
  · exact exec_frame hi
  · exact ⟨rfl, rfl, rfl, rfl, rfl⟩

/-- Settles O17: the two buffer reads, and the first unwritten cell of a read set, which is no later
than the given one because the cells before it are written. -/
theorem unwrittenReadFaults : Obligations.UnwrittenReadFaults := by
  refine ⟨fun s a ha hcell => perform_ibufRead_unwritten ha hcell,
    fun s a ha hcell => perform_obufRead_unwritten ha hcell, fun i s k hfit hk hcell => ?operation⟩
  case operation =>
    have hk' : k < readLength i s := by cases i <;> exact hk
    obtain ⟨x, hx⟩ := exists_readCells_eq_error hk' hcell
    obtain ⟨hle, -, hnone, hbefore⟩ := readCells_eq_error.1 hx
    refine ⟨x, exec_unwritten hfit hx, hnone, hle, ?_⟩
    by_contra hlate
    have hwritten := hbefore k (by omega)
    simp [hcell] at hwritten

end Sys2Proof.Machine
end

section
/-! PROOF. 20_memory.md R36, R37: the range check and the read sets. -/

namespace Sys2Proof.Machine

theorem storeConversion_statusErr_nil (s : State) :
    statusErr (storeConversion s (hexToBinary [])).status = 0 :=
  statusErr_withErr s.status 0

/-- No operation finds an error in the empty range. -/
theorem operate_nil_statusErr (i : Instr) (s : State) : statusErr (operate i s []).status = 0 := by
  cases i with
  | crc16 => exact statusErr_withErr s.status 0
  | hexdet => exact statusErr_withErr _ 0
  | hex2bin => exact statusErr_withErr s.status 0

theorem readLength_eq_zero {i : Instr} {s : State} (hlen : s.len.toNat = 0) :
    readLength i s = 0 := by
  cases i with
  | crc16 | hex2bin => exact hlen
  | hexdet => exact (congrArg (min · s.params.hexWindow) hlen).trans (Nat.zero_min _)

/-- Settles O18: the rejection compares natural numbers, and the empty range reads no cell. -/
theorem rangeCheckDoesNotWrap : Obligations.RangeCheckDoesNotWrap := by
  refine ⟨fun i s hout => exec_rejected i hout, fun i s hlen hoff => ?empty⟩
  case empty =>
    have hzero : s.len.toNat = 0 := by rw [hlen]; rfl
    exact ⟨_, exec_accepted (bs := []) (by omega) (readLength_eq_zero hzero).symm nofun,
      operate_nil_statusErr i s, operate_off s i []⟩

/-- A run of cells is read alike in two buffers that agree on it. -/
theorem readCells_congr {m m' : Memory} {a n : Nat}
    (h : ∀ k < n, readCell m (a + k) = readCell m' (a + k)) :
    readCells m a n = readCells m' a n := by
  cases hr : readCells m' a n with
  | ok bs =>
    obtain ⟨hlen, hcells⟩ := readCells_eq_ok.1 hr
    exact readCells_eq_ok.2 ⟨hlen, fun k hk => (h k (hlen ▸ hk)).trans (hcells k hk)⟩
  | error x =>
    obtain ⟨hle, hlt, hnone, hwritten⟩ := readCells_eq_error.1 hr
    refine readCells_eq_error.2 ⟨hle, hlt, ?_, fun k hk => ?_⟩
    · obtain ⟨k, rfl⟩ := Nat.exists_eq_add_of_le hle
      exact (h k (by omega)).trans hnone
    · rw [h k (by omega)]
      exact hwritten k hk

theorem storeConversion_with_ibuf (s : State) (m : Memory)
    (r : Except ConversionError (List Byte)) :
    storeConversion { s with ibuf := m } r = { storeConversion s r with ibuf := m } := by
  cases r <;> rfl

/-- An operation takes nothing from IBUF but the bytes it is given. -/
theorem operate_with_ibuf (i : Instr) (s : State) (m : Memory) (bs : List Byte) :
    operate i { s with ibuf := m } bs = { operate i s bs with ibuf := m } := by
  cases i with
  | crc16 => rfl
  | hexdet => rfl
  | hex2bin => exact storeConversion_with_ibuf s m _

theorem readLength_with_ibuf (i : Instr) (s : State) (m : Memory) :
    readLength i { s with ibuf := m } = readLength i s := by
  cases i <;> rfl

section
/-! Another buffer that agrees with IBUF on the read set of an operation. -/

variable {i : Instr} {s : State} {m : Memory}
  (hagree : ∀ k < readLength i s,
    readCell m (s.off.toNat + k) = readCell s.ibuf (s.off.toNat + k))

include hagree

theorem exec_with_ibuf_next {t : State} (h : exec i s = .next t) :
    exec i { s with ibuf := m } = .next { t with ibuf := m } := by
  rcases exec_next h with ⟨hout, rfl⟩ | ⟨hfit, bs, hlen, hcells, rfl⟩
  · exact exec_rejected (s := { s with ibuf := m }) i hout
  · rw [← operate_with_ibuf]
    refine exec_accepted hfit (hlen.trans (readLength_with_ibuf i s m).symm) fun k hk => ?_
    exact (hagree k (hlen ▸ hk)).trans (hcells k hk)

theorem exec_with_ibuf_fault {f : Fault} (h : exec i s = .fault f) :
    exec i { s with ibuf := m } = .fault f := by
  obtain ⟨hfit, x, hx, rfl⟩ := exec_fault h
  refine exec_unwritten hfit ?_
  rw [readLength_with_ibuf, ← hx]
  exact readCells_congr hagree

end

/-- Settles O19: a next state and a fault each follow the bytes of the read set. -/
theorem operationsReadOnlyTheirReadSet : Obligations.OperationsReadOnlyTheirReadSet :=
  fun _ _ _ hagree => ⟨fun _ h => exec_with_ibuf_next hagree h,
    fun _ h => exec_with_ibuf_fault hagree h⟩

end Sys2Proof.Machine
end

section
/-! PROOF. 10_state.md section 4: the canonical form of a buffer. -/

namespace Sys2Proof.Machine

theorem readCell_cons_same (k : Nat) (v : Byte) (m : Memory) :
    readCell ((k, v) :: m) k = some v :=
  if_pos rfl

theorem readCell_cons_other {k a : Nat} (v : Byte) (m : Memory) (h : k ≠ a) :
    readCell ((k, v) :: m) a = readCell m a :=
  if_neg h

/-- A cell below every written one is unwritten. -/
theorem readCell_eq_none_of_forall_lt {m : Memory} {a : Nat} (h : ∀ c ∈ m, a < c.1) :
    readCell m a = none := by
  induction m with
  | nil => rfl
  | cons c m ih =>
    obtain ⟨hc, hm⟩ := List.forall_mem_cons.1 h
    exact (readCell_cons_other c.2 m (Nat.ne_of_gt hc)).trans (ih hm)

/-- The first written cell of a canonical buffer is the lowest one it reads. -/
theorem head_le_of_readCell {k a : Nat} {v : Byte} {m : Memory} (hwf : Memory.wf ((k, v) :: m))
    (h : readCell ((k, v) :: m) a ≠ none) : k ≤ a := by
  obtain ⟨hk, -⟩ := wf_cons.1 hwf
  by_contra hlt
  have ha : a < k := Nat.not_le.1 hlt
  exact h (readCell_eq_none_of_forall_lt
    (List.forall_mem_cons.2 ⟨ha, fun c hc => ha.trans (hk c hc)⟩))

/-- A canonical buffer is known by what its cells read as: the lowest cell read is the first one
listed, in both buffers. -/
theorem eq_of_readCell_eq {m m' : Memory} (hm : Memory.wf m) (hm' : Memory.wf m')
    (h : ∀ a, readCell m a = readCell m' a) : m = m' := by
  induction m generalizing m' with
  | nil =>
    cases m' with
    | nil => rfl
    | cons c m' => cases (h c.1).trans (readCell_cons_same c.1 c.2 m')
  | cons c m ih =>
    obtain ⟨k, v⟩ := c
    cases m' with
    | nil => cases (readCell_cons_same k v m).symm.trans (h k)
    | cons c' m' =>
      obtain ⟨k', v'⟩ := c'
      have hv := readCell_cons_same k v m
      have hv' := readCell_cons_same k' v' m'
      have hle : k ≤ k' := head_le_of_readCell hm (by simp [h, hv'])
      have hge : k' ≤ k := head_le_of_readCell hm' (by simp [← h, hv])
      obtain rfl : k = k' := Nat.le_antisymm hle hge
      obtain rfl : v = v' := Option.some.inj (hv.symm.trans ((h k).trans hv'))
      obtain ⟨hk, hm⟩ := wf_cons.1 hm
      obtain ⟨hk', hm'⟩ := wf_cons.1 hm'
      refine congrArg _ (ih hm hm' fun a => ?_)
      by_cases ha : k = a
      · subst ha
        rw [readCell_eq_none_of_forall_lt hk, readCell_eq_none_of_forall_lt hk']
      · rw [← readCell_cons_other v m ha, ← readCell_cons_other v m' ha]
        exact h a

/-- Settles O21. -/
theorem canonicalBufferIsUnique : Obligations.CanonicalBufferIsUnique :=
  fun _ _ hm hm' h => eq_of_readCell_eq hm hm' h

/-- Writing the same byte again changes nothing. -/
theorem writeCell_writeCell {m : Memory} (a : Nat) (b : Byte) (hm : Memory.wf m) :
    writeCell (writeCell m a b) a b = writeCell m a b := by
  refine eq_of_readCell_eq (writeCell_wf a b (writeCell_wf a b hm)) (writeCell_wf a b hm)
    fun x => ?_
  by_cases hx : x = a
  · subst hx
    rw [readCell_writeCell_same, readCell_writeCell_same]
  · rw [readCell_writeCell_other _ b hx]

/-- Writing the same run again changes nothing. -/
theorem writeCells_writeCells {m : Memory} (a : Nat) (bs : List Byte) (hm : Memory.wf m) :
    writeCells (writeCells m a bs) a bs = writeCells m a bs := by
  have hwritten := writeCells_wf a bs hm
  refine eq_of_readCell_eq (writeCells_wf a bs hwritten) hwritten fun x => ?_
  rw [readCell_writeCells, readCell_writeCells]
  split_ifs <;> rfl

end Sys2Proof.Machine
end
